-- ==== Sys2Proof/Word.lean ====
section
/-! DEFINITION. The word of the block (R6, R8, R9): 64 bits, bit 0 least significant, always unsigned. -/

namespace Sys2Proof

/-- A codeword, a payload on its 64-bit port, or any operand (R6, R26, R27). -/
abbrev Word := BitVec 64

/-- A byte, as a host may cut a word into for storage (R42). -/
abbrev Byte := BitVec 8

end Sys2Proof
end

