-- ==== Sys2Proof/Machine/Tables.lean ====
section
/-! DEFINITION. The block's hardwired constant tables (R30): `PPOS`, `PARITY_MASK`, `DATA_MASK` (R61), `DPOS` (R62),
`M_0` .. `M_5` (R140), and the precondition they give `setParity` (R145). That the numbers are what the rules define is stated among the obligations. -/

namespace Sys2Proof.Machine

/-- `PPOS` (R61, C1): position 0 and the six positions `2^k`. -/
def parityPositions : List Nat := [0, 1, 2, 4, 8, 16, 32]

/-- `PARITY_MASK` (R61). -/
def parityMask : Word := 0x0000000100010117#64

/-- The precondition of `setParity`: the word has 0 at every position of `PPOS` (R145). -/
def parityPositionsZero (w : Word) : Bool := w &&& parityMask == 0#64

/-- `DATA_MASK` (R61). -/
def dataMask : Word := 0xFFFFFFFEFFFEFEE8#64

/-- The positions that hold payload bits, in ascending order: `{0 .. 63} \ PPOS` (R62). -/
def payloadPositions : List Nat := (List.range 64).filter (fun i => i ∉ parityPositions)

/-- `DPOS(i)` for `i = 0 .. 56`, by the closed form of R62. -/
def dpos (i : Nat) : Nat :=
  if i < 1 then i + 3
  else if i < 4 then i + 4
  else if i < 11 then i + 5
  else if i < 26 then i + 6
  else i + 7

/-- The six parity-group masks, "a compile-time constant array of six 64-bit masks" (R30, R140). -/
def groupMasks : Vector Word 6 :=
  #v[0xAAAAAAAAAAAAAAAA#64, 0xCCCCCCCCCCCCCCCC#64, 0xF0F0F0F0F0F0F0F0#64,
     0xFF00FF00FF00FF00#64, 0xFFFF0000FFFF0000#64, 0xFFFFFFFF00000000#64]

/-- `M_k` (R140). -/
def groupMask (k : Fin 6) : Word := groupMasks[k]

end Sys2Proof.Machine
end

