-- ==== Sys2Proof/Syntax.lean ====
section
/-! DEFINITION. The eight operations of the block (R3, R67), one constructor a row of spec/opcode_table.json. -/

namespace Sys2Proof

/-- A request, decoded: the operation with its one 64-bit operand (R65, R68). -/
inductive Instr where
  /-- op 000, R101 -/
  | popcount (operand : Word)
  /-- op 001, R122 -/
  | reposition (operand : Word)
  /-- op 010, R124 -/
  | unreposition (operand : Word)
  /-- op 011, R146 -/
  | setParity (operand : Word)
  /-- op 100, R148 -/
  | encode (operand : Word)
  /-- op 101, R171 -/
  | findErrorPosition (operand : Word)
  /-- op 110, R175 -/
  | correctBlock (operand : Word)
  /-- op 111, R177 -/
  | decode (operand : Word)
  deriving DecidableEq, Repr

/-- The operand field of a request (R68). -/
def Instr.operand : Instr → Word
  | .popcount w => w
  | .reposition w => w
  | .unreposition w => w
  | .setParity w => w
  | .encode w => w
  | .findErrorPosition w => w
  | .correctBlock w => w
  | .decode w => w

/-- Whether the operation reads its operand as a payload, bits 56:0 only (R65, R68). -/
def Instr.takesPayload : Instr → Bool
  | .popcount _ => false
  | .reposition _ => true
  | .unreposition _ => false
  | .setParity _ => false
  | .encode _ => true
  | .findErrorPosition _ => false
  | .correctBlock _ => false
  | .decode _ => false

/-- Whether the operation can report failure; the other six have "no failure mode" (R23, R66). -/
def Instr.canFail : Instr → Bool
  | .popcount _ => false
  | .reposition _ => false
  | .unreposition _ => false
  | .setParity _ => false
  | .encode _ => false
  | .findErrorPosition _ => false
  | .correctBlock _ => true
  | .decode _ => true

end Sys2Proof
end

