-- ==== Sys2Proof/WellFormed.lean ====
section
/-! DEFINITION. The two checks a request can fail: it is a number of 67 bits (R65), and a setParity operand has its seven
parity positions at 0 (R145). The second is a check on the operand's VALUE, made after decoding (R69, R70). -/

namespace Sys2Proof

/-- `w`, written as a packed request (R71), is a request at all: its bits lie in 66:0 (R65). -/
def packedWellFormed (w : Nat) : Bool := decide (w < 2 ^ 67)

/-- The request has a meaning: every request does but a `setParity` that breaks its precondition (R69, R145, R232). -/
def Instr.wellFormed : Instr → Bool
  | .popcount _ => true
  | .reposition _ => true
  | .unreposition _ => true
  | .setParity w => Machine.parityPositionsZero w
  | .encode _ => true
  | .findErrorPosition _ => true
  | .correctBlock _ => true
  | .decode _ => true

end Sys2Proof
end

