-- ==== Sys2Proof/Decode.lean ====
section
/-! DEFINITION. The decoder of request words, total on all 2^67 of them (R65, R70), the decoder of packed numerals, which
rejects by name what is no request (R71), and after them the encoder. The op codes are the spec's own decision (D3, log 10). -/

namespace Sys2Proof

/-- The operation that `op` selects, with its operand (R67). All eight values of `op` are operations (R69). -/
def decodeFields (op : BitVec 3) (operand : Word) : Instr :=
  match op.getLsbD 2, op.getLsbD 1, op.getLsbD 0 with
  | false, false, false => .popcount operand
  | false, false, true  => .reposition operand
  | false, true,  false => .unreposition operand
  | false, true,  true  => .setParity operand
  | true,  false, false => .encode operand
  | true,  false, true  => .findErrorPosition operand
  | true,  true,  false => .correctBlock operand
  | true,  true,  true  => .decode operand

/-- Bits 66:64 of a request (R65). -/
def opField (request : BitVec 67) : BitVec 3 := request.extractLsb' 64 3

/-- Bits 63:0 of a request (R65). -/
def operandField (request : BitVec 67) : Word := request.extractLsb' 0 64

/-- The instruction in a 67-bit request; no request is rejected (R70). -/
def decodeRequest (request : BitVec 67) : Instr :=
  decodeFields (opField request) (operandField request)

/-- Why a numeral is no request. -/
inductive DecodeReject where
  /-- A bit above bit 66 is set: the request port has 67 bits (R65). DEDUCED, safe (log 13). -/
  | bitAbove66
  deriving DecidableEq, Repr

/-- The instruction in a packed request `(op << 64) | operand`, given as a number (R71). -/
def decodePacked (w : Nat) : Except DecodeReject Instr :=
  if packedWellFormed w then .ok (decodeRequest (BitVec.ofNat 67 w)) else .error .bitAbove66

/-- The decoder on a word of the opcode table's numbering. A request is bit-parallel, so no byte order enters (R42). -/
def decodeTableWord (nbits w : Nat) : Option Instr :=
  match decodePacked (w % 2 ^ nbits) with
  | .ok i => some i
  | .error _ => none

/-- The `op` code of an operation (R67). -/
def opCode : Instr → BitVec 3
  | .popcount _ => 0b000#3
  | .reposition _ => 0b001#3
  | .unreposition _ => 0b010#3
  | .setParity _ => 0b011#3
  | .encode _ => 0b100#3
  | .findErrorPosition _ => 0b101#3
  | .correctBlock _ => 0b110#3
  | .decode _ => 0b111#3

/-- The 67-bit request of an instruction: `op` above `operand` (R65). -/
def encodeRequest (i : Instr) : BitVec 67 := opCode i ++ i.operand

/-- The packed request as a number (R71). -/
def encodePacked (i : Instr) : Nat := (encodeRequest i).toNat

end Sys2Proof
end

