-- ==== Sys2Proof/Machine/State.lean ====
section
/-! DEFINITION. State as plain data. THE BLOCK HOLDS NO STATE (R20, R21, R22, R23, R31): every field belongs to the host
agent of R33 and R240, and together they are a run (R241). -/

namespace Sys2Proof.Machine

/-- Values held by key, keys strictly rising: one canonical form for each finite map. -/
abbrev Keyed (α : Type) := List (Nat × α)

/-- The host's codeword storage, slot to word (R29, R33, R240). A slot not listed holds nothing (log 3). -/
abbrev Storage := Keyed Word

/-- A response (R66): `result` in bits 63:0, `ok` in bit 64 (`true` is success). -/
structure Response where
  result : Word
  ok : Bool
  deriving DecidableEq, Repr

/-- One response the host received, with the request it belongs to and the instance that gave it (R230, R241). -/
structure Delivery where
  port : Nat
  request : Instr
  response : Response
  deriving DecidableEq, Repr

/-- An operation in place on a stored word: the worker, and the index in the transcript of the response it will write back (R41, R48). -/
structure InPlace where
  worker : Nat
  index : Nat
  deriving DecidableEq, Repr

/-- What the host does next (R240). A worker's number and a slot's number are the host's names, not the block's. -/
inductive HostAct where
  /-- Present a request to instance `port` (R65, R240). -/
  | request (port : Nat) (packed : BitVec 67)
  /-- Present operation `op` on the word stored in `slot` (R72: the operand is a host variable). -/
  | requestStored (worker port : Nat) (op : BitVec 3) (slot : Nat)
  /-- The same, in place: from here to `writeBack` the worker is mutating the slot (R41, R48). -/
  | requestInPlace (worker port : Nat) (op : BitVec 3) (slot : Nat)
  /-- Write the response of the operation in place back to its slot (R41). -/
  | writeBack (worker slot : Nat)
  /-- Store a value (R72: `host: <var> <- <expression>`). -/
  | store (worker slot : Nat) (value : Word)
  /-- Keep the result of response number `index` in a slot (R72: `<var> <- <mnemonic> <operand>`); its `<var>.ok` is that entry's `ok` (log 18). -/
  | storeResult (worker slot index : Nat)
  /-- Copy a stored word (R72). -/
  | copy (worker source target : Nat)
  /-- Deliberate error injection: flip the bits of `mask` in a stored word (R72, R240). -/
  | flip (worker slot : Nat) (mask : Word)
  /-- Transport noise: the bits of `mask` flip in a stored word, by nobody's act (R27, R240). -/
  | noise (slot : Nat) (mask : Word)
  deriving DecidableEq, Repr

/-- A run in progress (R241). -/
structure State where
  /-- What the host does next, first act first (R240, R241; log 1). -/
  pending : List HostAct
  /-- The instance whose request ports the host drives (R33, R207; log 7). -/
  port : Nat
  /-- The host's codeword storage (R29, R33). -/
  storage : Storage
  /-- The slots a worker is mutating in place (R41, R48; log 4). -/
  inPlace : Keyed InPlace
  /-- The responses received, oldest first (R241; log 2); each `<var>.ok` of R72 is read here (log 18). -/
  transcript : List Delivery
  deriving DecidableEq, Repr

/-- The block "raises no exception, trap, fault or panic" (R200), and "No behaviour of the block is a `fault` or `stuck`"
(93_implementation_defined.md): there is no fault. Safe: nobody raises one. -/
inductive Fault where
  deriving DecidableEq, Repr

/-- Why the model gives no meaning. -/
inductive Refusal where
  /-- exec's arm of an instruction without a meaning; no arm raises it. Safe. -/
  | notModelled (mnemonic : String)
  /-- `setParity` on an operand with a nonzero parity position, named as R145 names it (D7, log 5). Safe. -/
  | setParity_parity_positions_nonzero
  /-- A host act touches a slot that ANOTHER worker is mutating: the race of R48, to which the spec gives no meaning (log 4). Safe. -/
  | storageRace
  /-- A host act reads a slot to which nothing has been stored (log 3). Safe. -/
  | emptySlot
  /-- A host act names a response that has not been received (log 16). Safe. -/
  | noSuchResponse
  /-- A write-back where no operation in place is under way (log 16). Safe. -/
  | noInPlaceOperation
  /-- step, with nothing pending: the run has ended (R241) and the block "has no other step" (D1, log 6). Safe. -/
  | noRequest
  deriving DecidableEq, Repr

/-- Before a run: nothing pending, nothing stored, nothing received. The block has no reset and nothing to reset (R230, R32);
DESIGN CHOICE, logs 7 and 11. -/
def State.reset : State :=
  { pending := [], port := 0, storage := [], inPlace := [], transcript := [] }

end Sys2Proof.Machine
end

