-- ==== Sys2Proof/Machine/Flags.lean ====
section
/-! DEFINITION. The block has no flags, condition codes or status registers; its one status signal is the `ok` bit of a
response, a function of its own request (R23, R66). -/

namespace Sys2Proof.Machine

/-- The response of an operation with no failure mode: `ok` is 1 (R23, R66, D4). -/
def succeed (result : Word) : Response := { result := result, ok := true }

/-- The 65-bit response: `ok` in bit 64 above `result` in bits 63:0 (R66). -/
def Response.pack (r : Response) : BitVec 65 := BitVec.ofBool r.ok ++ r.result

/-- The payload a caller may take from a `decode` response: the result on success, nothing on failure (R235). -/
def Response.payload (r : Response) : Option Word := if r.ok then some r.result else none

end Sys2Proof.Machine
end

