-- ==== Sys2Proof/Machine/Ops.lean ====
section
/-! DEFINITION. The shared operations: single bits of a word (R10), values held by key, receiving a response. There is no
exception to take and none to return from (R200, R204, R205). -/

namespace Sys2Proof.Machine

/-- `b << i` for a single bit `b` (R10). -/
def bitAt (b : Bool) (i : Nat) : Word := if b then 1#64 <<< i else 0#64

/-- `v with [i] <- b` (R10). -/
def setBit (v : Word) (i : Nat) (b : Bool) : Word := (v &&& ~~~(1#64 <<< i)) ||| bitAt b i

/-- `v ^ (1 << i)`: the word with bit `i` flipped (R174). -/
def flipBit (v : Word) (i : Nat) : Word := v ^^^ (1#64 <<< i)

/-- `zext_64(v)` (R10). -/
def zext64 {n : Nat} (v : BitVec n) : Word := v.setWidth 64

/-- The value at a key, if there is one. -/
def Keyed.get {α : Type} : Keyed α → Nat → Option α
  | [], _ => none
  | (b, v) :: rest, a => if a = b then some v else Keyed.get rest a

/-- Put a value at a key, keeping the keys rising. -/
def Keyed.put {α : Type} : Keyed α → Nat → α → Keyed α
  | [], a, x => [(a, x)]
  | (b, v) :: rest, a, x =>
    if a < b then (a, x) :: (b, v) :: rest
    else if a = b then (a, x) :: rest
    else (b, v) :: Keyed.put rest a x

/-- Take a key's entry out. -/
def Keyed.drop {α : Type} : Keyed α → Nat → Keyed α
  | [], _ => []
  | (b, v) :: rest, a => if a = b then rest else (b, v) :: Keyed.drop rest a

/-- Every key is above `a`. -/
def Keyed.above {α : Type} (a : Nat) : Keyed α → Bool
  | [] => true
  | (b, _) :: rest => decide (a < b) && Keyed.above a rest

/-- The canonical form: keys strictly rising. -/
def Keyed.wf {α : Type} : Keyed α → Bool
  | [] => true
  | (b, _) :: rest => Keyed.above b rest && Keyed.wf rest

/-- The host receives the response to request `i` from the instance it drives (R240, R241). Nothing else changes. -/
def State.deliver (s : State) (i : Instr) (r : Response) : State :=
  { s with transcript := s.transcript ++ [{ port := s.port, request := i, response := r }] }

/-- A worker other than `worker` is mutating `slot` (R48). -/
def State.mutatedByOther (s : State) (worker slot : Nat) : Bool :=
  match Keyed.get s.inPlace slot with
  | none => false
  | some p => p.worker != worker

/-- `worker` writes `value` to `slot`; refused where another worker is mutating it (R48). -/
def State.writeSlot (s : State) (worker slot : Nat) (value : Word) : Except Refusal State :=
  if s.mutatedByOther worker slot then .error .storageRace
  else .ok { s with storage := Keyed.put s.storage slot value }

end Sys2Proof.Machine
end

