-- ==== Sys2Proof/Machine/BitLayout.lean ====
section
/-! DEFINITION. bit_repositioner (41_bit_layout.md): R120 to R124. -/

namespace Sys2Proof.Machine

/-- `OR` over the payload bits below `n` of `p[i] << DPOS(i)`. -/
def scatterBelow (p : Word) : Nat → Word
  | 0 => 0#64
  | n + 1 => scatterBelow p n ||| bitAt (p.getLsbD n) (dpos n)

/-- `REPOS(p)` (R120): bits 63:57 of `p` are dropped (R121, D6). -/
def repos (p : Word) : Word := scatterBelow p 57

/-- `OR` over the payload bits below `n` of `w[DPOS(i)] << i`. -/
def gatherBelow (w : Word) : Nat → Word
  | 0 => 0#64
  | n + 1 => gatherBelow w n ||| bitAt (w.getLsbD (dpos n)) n

/-- `UNREPOS(w)` (R123): the positions of `PPOS` are not read. -/
def unrepos (w : Word) : Word := gatherBelow w 57

/-- The response to `reposition` (R122). -/
def responseReposition (operand : Word) : Response := succeed (repos operand)

/-- Operation `reposition` (R122). -/
def execReposition (operand : Word) (s : State) : Host.Outcome State Fault Refusal :=
  .next (s.deliver (.reposition operand) (responseReposition operand))

/-- The response to `unreposition` (R124). -/
def responseUnreposition (operand : Word) : Response := succeed (unrepos operand)

/-- Operation `unreposition` (R124). -/
def execUnreposition (operand : Word) (s : State) : Host.Outcome State Fault Refusal :=
  .next (s.deliver (.unreposition operand) (responseUnreposition operand))

end Sys2Proof.Machine
end

