-- ==== Sys2Proof/Machine/Popcount.lean ====
section
/-! DEFINITION. popcount_64 (40_popcount.md): R100 to R103. -/

namespace Sys2Proof.Machine

/-- The number of ones among bits `n-1 .. 0`. -/
def countBelow (x : Word) : Nat → Nat
  | 0 => 0
  | n + 1 => countBelow x n + (x.getLsbD n).toNat

/-- `popcount(x) = SUM_{i=0..63} x[i]` (R100); one function, whatever realises it (R103). -/
def popcount (x : Word) : Nat := countBelow x 64

/-- `parity(x) = popcount(x) mod 2` (R102, R173). -/
def parity (x : Word) : Bool := popcount x % 2 == 1

/-- The sub-block popcount_64: its 7-bit `count` output (R100, D5). -/
def popcount64 (x : Word) : BitVec 7 := BitVec.ofNat 7 (popcount x)

/-- The response to `popcount` (R101). -/
def responsePopcount (operand : Word) : Response := succeed (zext64 (popcount64 operand))

/-- Operation `popcount` (R101). -/
def execPopcount (operand : Word) (s : State) : Host.Outcome State Fault Refusal :=
  .next (s.deliver (.popcount operand) (responsePopcount operand))

end Sys2Proof.Machine
end

