-- ==== Sys2Proof/Machine/ParityEncoder.lean ====
section
/-! DEFINITION. parity_syndrome_calculator and hamming_64_57_encoder (42_parity_encoder.md): R141 to R148. -/

namespace Sys2Proof.Machine

/-- `parity(w & M_k)`, the parity of group `k` (R141). -/
def groupParity (w : Word) (k : Fin 6) : Bool := parity (w &&& groupMask k)

/-- `GP(w)`: bit `k` is the parity of group `k` (R141). -/
def gp (w : Word) : BitVec 6 :=
  BitVec.ofBool (groupParity w 5) ++ BitVec.ofBool (groupParity w 4) ++ BitVec.ofBool (groupParity w 3) ++
    BitVec.ofBool (groupParity w 2) ++ BitVec.ofBool (groupParity w 1) ++ BitVec.ofBool (groupParity w 0)

/-- The positional writes of R143 for the groups below `n`: `t with [2^k] <- g[k]`. -/
def writePositional (g : BitVec 6) (t : Word) : Nat → Word
  | 0 => t
  | k + 1 => setBit (writePositional g t k) (2 ^ k) (g.getLsbD k)

/-- `SETPAR(w)` (R143): the six positional parities of `w`, then the extended parity of the whole word that holds them (R144, R238). -/
def setpar (w : Word) : Word :=
  setBit (writePositional (gp w) w 6) 0 (parity (writePositional (gp w) w 6))

/-- `ENC(p) = SETPAR(REPOS(p))` (R147). -/
def enc (p : Word) : Word := setpar (repos p)

/-- The response to `setParity`; none where a parity position of the operand is not 0 (R145, R146). -/
def responseSetParity (operand : Word) : Option Response :=
  if parityPositionsZero operand then some (succeed (setpar operand)) else none

/-- Operation `setParity` (R146), refused as R145 says. -/
def execSetParity (operand : Word) (s : State) : Host.Outcome State Fault Refusal :=
  match responseSetParity operand with
  | some r => .next (s.deliver (.setParity operand) r)
  | none => .refused .setParity_parity_positions_nonzero

/-- The response to `encode` (R148); the precondition of SETPAR always holds (R147). -/
def responseEncode (operand : Word) : Response := succeed (enc operand)

/-- Operation `encode` (R148). -/
def execEncode (operand : Word) (s : State) : Host.Outcome State Fault Refusal :=
  .next (s.deliver (.encode operand) (responseEncode operand))

end Sys2Proof.Machine
end

