-- ==== Sys2Proof/Machine/SyndromeDecoder.lean ====
section
/-! DEFINITION. hamming_64_57_decoder (43_syndrome_decoder.md): R170 to R178. -/

namespace Sys2Proof.Machine

/-- `S(w)`, the syndrome: GP of the received word (R170). -/
def syndrome (w : Word) : BitVec 6 := gp w

/-- The pair `(word, ok)` that CORR and DEC answer with (R174, R176). -/
structure Corrected where
  word : Word
  ok : Bool
  deriving DecidableEq, Repr

/-- `CORR(w)`, the SEC-DED decision table (R174, C2, C4): total parity is tested first (R203). -/
def corr (w : Word) : Corrected :=
  if parity w then { word := flipBit w (syndrome w).toNat, ok := true }
  else if syndrome w = 0#6 then { word := w, ok := true }
  else { word := w, ok := false }

/-- `DEC(w)` (R176). -/
def dec (w : Word) : Corrected :=
  if (corr w).ok then { word := unrepos (corr w).word, ok := true }
  else { word := w, ok := false }

/-- The error classes of R178. -/
inductive ErrorClass where
  | clean
  | singleCorrectable
  | doubleUncorrectable
  deriving DecidableEq, Repr

/-- The class of a received word, "derived, not stored", on no port (R178). -/
def classify (w : Word) : ErrorClass :=
  match parity w, decide (syndrome w = 0#6) with
  | false, true => .clean
  | true, _ => .singleCorrectable
  | false, false => .doubleUncorrectable

/-- The response to `findErrorPosition` (R171). -/
def responseFindErrorPosition (operand : Word) : Response := succeed (zext64 (syndrome operand))

/-- Operation `findErrorPosition` (R171). -/
def execFindErrorPosition (operand : Word) (s : State) : Host.Outcome State Fault Refusal :=
  .next (s.deliver (.findErrorPosition operand) (responseFindErrorPosition operand))

/-- The response to `correctBlock` (R175). -/
def responseCorrectBlock (operand : Word) : Response :=
  { result := (corr operand).word, ok := (corr operand).ok }

/-- Operation `correctBlock` (R175). -/
def execCorrectBlock (operand : Word) (s : State) : Host.Outcome State Fault Refusal :=
  .next (s.deliver (.correctBlock operand) (responseCorrectBlock operand))

/-- The response to `decode` (R177). -/
def responseDecode (operand : Word) : Response :=
  { result := (dec operand).word, ok := (dec operand).ok }

/-- Operation `decode` (R177). -/
def execDecode (operand : Word) (s : State) : Host.Outcome State Fault Refusal :=
  .next (s.deliver (.decode operand) (responseDecode operand))

end Sys2Proof.Machine
end

