-- ==== Sys2Proof/Machine/Dispatch.lean ====
section
/-! DEFINITION. One arm per operation of R67. -/

namespace Sys2Proof.Machine

def exec (i : Instr) (s : State) : Host.Outcome State Fault Refusal :=
  match i with
  | .popcount w => Sys2Proof.Machine.execPopcount w s
  | .reposition w => Sys2Proof.Machine.execReposition w s
  | .unreposition w => Sys2Proof.Machine.execUnreposition w s
  | .setParity w => Sys2Proof.Machine.execSetParity w s
  | .encode w => Sys2Proof.Machine.execEncode w s
  | .findErrorPosition w => Sys2Proof.Machine.execFindErrorPosition w s
  | .correctBlock w => Sys2Proof.Machine.execCorrectBlock w s
  | .decode w => Sys2Proof.Machine.execDecode w s

end Sys2Proof.Machine
end

