-- ==== Sys2Proof/Machine/Operands.lean ====
section
/-! DEFINITION. Operand forms. The block has ONE: the 64-bit operand field, unsigned, neither extended nor scaled (R68), as
Decode reads it. The host fills it with a literal or with a stored word (R72). -/

namespace Sys2Proof.Machine

/-- `worker` reads `slot` for an operand; refused where another worker is mutating it (R48) or it holds nothing (log 3). -/
def State.readSlot (s : State) (worker slot : Nat) : Except Refusal Word :=
  if s.mutatedByOther worker slot then .error .storageRace
  else match Keyed.get s.storage slot with
    | none => .error .emptySlot
    | some w => .ok w

/-- The result of response number `index` (R72: a host variable that received it). -/
def State.receivedResult (s : State) (index : Nat) : Except Refusal Word :=
  match s.transcript[index]? with
  | none => .error .noSuchResponse
  | some d => .ok d.response.result

end Sys2Proof.Machine
end

