-- ==== Sys2Proof/Machine/HostActs.lean ====
section
/-! DEFINITION. What each act of the host does (R29, R41, R48, R72, R240). Only a request reaches the block; the other acts
change host storage alone. -/

namespace Sys2Proof.Machine

/-- A host act that answers a state or a refusal, as an outcome. -/
def hostOutcome : Except Refusal State → Host.Outcome State Fault Refusal
  | .ok s => .next s
  | .error r => .refused r

/-- Present a request to instance `port`: the block decodes it and answers (R65, R240). -/
def present (s : State) (port : Nat) (packed : BitVec 67) : Host.Outcome State Fault Refusal :=
  exec (decodeRequest packed) { s with port := port }

/-- Present `op` on a stored word (R72). -/
def presentStored (s : State) (worker port : Nat) (op : BitVec 3) (slot : Nat) : Host.Outcome State Fault Refusal :=
  match s.readSlot worker slot with
  | .error r => .refused r
  | .ok w => present s port (op ++ w)

/-- The same in place: the slot is `worker`'s until the response, the next of the transcript, is written back (R41, R48). -/
def presentInPlace (s : State) (worker port : Nat) (op : BitVec 3) (slot : Nat) : Host.Outcome State Fault Refusal :=
  match s.readSlot worker slot with
  | .error r => .refused r
  | .ok w =>
    present { s with inPlace := Keyed.put s.inPlace slot { worker := worker, index := s.transcript.length } } port (op ++ w)

/-- Write the response of the operation in place back and end it (R41); refused where the operation is another worker's (R48). -/
def writeBack (s : State) (worker slot : Nat) : Except Refusal State :=
  match Keyed.get s.inPlace slot with
  | none => .error .noInPlaceOperation
  | some p =>
    if p.worker != worker then .error .storageRace
    else match s.receivedResult p.index with
      | .error r => .error r
      | .ok w => .ok { s with storage := Keyed.put s.storage slot w, inPlace := Keyed.drop s.inPlace slot }

/-- Keep a received result in a slot (R72). DESIGN CHOICE (log 18): the slot takes `result` alone, and `<var>.ok` stays where it was
received, in the transcript entry `index`. -/
def storeResult (s : State) (worker slot index : Nat) : Except Refusal State :=
  match s.receivedResult index with
  | .error r => .error r
  | .ok w => s.writeSlot worker slot w

/-- Copy a stored word (R72). -/
def copySlot (s : State) (worker source target : Nat) : Except Refusal State :=
  match s.readSlot worker source with
  | .error r => .error r
  | .ok w => s.writeSlot worker target w

/-- Flip the bits of `mask` in a stored word: `w <- w ^ mask` (R72, R240). -/
def flipSlot (s : State) (worker slot : Nat) (mask : Word) : Except Refusal State :=
  match s.readSlot worker slot with
  | .error r => .error r
  | .ok w => s.writeSlot worker slot (w ^^^ mask)

/-- Transport noise on a stored word, bound by no worker's discipline (R27, R240; log 17). -/
def noiseSlot (s : State) (slot : Nat) (mask : Word) : Except Refusal State :=
  match Keyed.get s.storage slot with
  | none => .error .emptySlot
  | some w => .ok { s with storage := Keyed.put s.storage slot (w ^^^ mask) }

/-- One act of the host. -/
def perform (a : HostAct) (s : State) : Host.Outcome State Fault Refusal :=
  match a with
  | .request port packed => present s port packed
  | .requestStored worker port op slot => presentStored s worker port op slot
  | .requestInPlace worker port op slot => presentInPlace s worker port op slot
  | .writeBack worker slot => hostOutcome (writeBack s worker slot)
  | .store worker slot value => hostOutcome (s.writeSlot worker slot value)
  | .storeResult worker slot index => hostOutcome (storeResult s worker slot index)
  | .copy worker source target => hostOutcome (copySlot s worker source target)
  | .flip worker slot mask => hostOutcome (flipSlot s worker slot mask)
  | .noise slot mask => hostOutcome (noiseSlot s slot mask)

end Sys2Proof.Machine
end

