-- ==== Sys2Proof/Machine/Step.lean ====
section
/-! DEFINITION. One step: the first pending act, and nothing else (R12, R45, D1). -/

namespace Sys2Proof.Machine

/-- One step of the run. With nothing pending the run has ended (R241): refused, log 6. -/
def step (s : State) : Host.Outcome State Fault Refusal :=
  match s.pending with
  | [] => .refused .noRequest
  | a :: rest => perform a { s with pending := rest }

/-- `s` with the request whose bits are `w` as what the host presents next, to the instance it is driving (log 12).
The request port has 67 bits, so `w` has none above bit 66 (log 13). -/
def State.withFetchWord (s : State) (nbits w : Nat) : State :=
  { s with pending := .request s.port (BitVec.ofNat 67 (w % 2 ^ nbits)) :: s.pending }

end Sys2Proof.Machine
end

