-- ==== Sys2Proof/Machine/Assembler.lean ====
section
/-! DEFINITION. The written form of requests and responses (R71, D15): `<mnemonic> <operand>`, the packed request, and
`-> result=0x<16 hex digits> ok=<0|1>`. -/

namespace Sys2Proof.Machine

/-- The mnemonic, spelled as the document spells the function (R67, R71). -/
def mnemonic : Instr → String
  | .popcount _ => "popcount"
  | .reposition _ => "reposition"
  | .unreposition _ => "unreposition"
  | .setParity _ => "setParity"
  | .encode _ => "encode"
  | .findErrorPosition _ => "findErrorPosition"
  | .correctBlock _ => "correctBlock"
  | .decode _ => "decode"

/-- One hexadecimal digit, for `v` below 16, capital as R71 writes it. -/
def hexChar (v : Nat) : Char := (Nat.digitChar v).toUpper

/-- `v` in exactly `n` hexadecimal digits. -/
def hexDigits : Nat → Nat → List Char
  | 0, _ => []
  | n + 1, v => hexDigits n (v / 16) ++ [hexChar (v % 16)]

/-- A hexadecimal numeral: `0x` and `n` digits (R71). -/
def hexNumeral (n v : Nat) : List Char := '0' :: 'x' :: hexDigits n v

/-- `<mnemonic> <operand>`, the operand as `0x` and 16 digits (R71). -/
def writeRequest (i : Instr) : String :=
  String.ofList ((mnemonic i).toList ++ ' ' :: hexNumeral 16 i.operand.toNat)

/-- The packed request: `0x` and 17 digits (R71). -/
def writePacked (i : Instr) : String := String.ofList (hexNumeral 17 (encodePacked i))

/-- The response (R71). -/
def writeResponse (r : Response) : String :=
  String.ofList ("-> result=".toList ++ hexNumeral 16 r.result.toNat ++ " ok=".toList ++ [if r.ok then '1' else '0'])

/-- The value of a digit: the number below `base` that is written as it, in either case (R71, log 15). -/
def digitValue (base : Nat) (digit : Char) : Option Nat :=
  (List.range base).find? fun v => hexChar v == digit.toUpper

/-- Read digits onto the value read so far, most significant first. -/
def readDigits (base : Nat) : Nat → List Char → Option Nat
  | soFar, [] => some soFar
  | soFar, digit :: rest => (digitValue base digit).bind fun v => readDigits base (base * soFar + v) rest

/-- Read a numeral: `0x` and 1 to `most` hexadecimal digits, or decimal digits (R71). -/
def readNumeral (most : Nat) : List Char → Option Nat
  | '0' :: 'x' :: digits =>
    if digits = [] ∨ most < digits.length then none else readDigits 16 0 digits
  | [] => none
  | digit :: rest => readDigits 10 0 (digit :: rest)

/-- The operation a mnemonic names, case-sensitive (R71). -/
def readMnemonic (name : String) (operand : Word) : Option Instr :=
  match name with
  | "popcount" => some (.popcount operand)
  | "reposition" => some (.reposition operand)
  | "unreposition" => some (.unreposition operand)
  | "setParity" => some (.setParity operand)
  | "encode" => some (.encode operand)
  | "findErrorPosition" => some (.findErrorPosition operand)
  | "correctBlock" => some (.correctBlock operand)
  | "decode" => some (.decode operand)
  | _ => none

/-- Read `<mnemonic> <operand>`, one space between; an operand of 2^64 or more is no operand (R71). -/
def readRequest (text : String) : Option Instr :=
  match readNumeral 16 ((text.toList.dropWhile (· != ' ')).drop 1) with
  | none => none
  | some v =>
    if v < 2 ^ 64 then
      readMnemonic (String.ofList (text.toList.takeWhile (· != ' '))) (BitVec.ofNat 64 v)
    else none

/-- Read a packed request (R71); what is wider than a request is rejected. -/
def readPacked (text : String) : Option Instr :=
  match readNumeral 17 text.toList with
  | none => none
  | some v =>
    match decodePacked v with
    | .ok i => some i
    | .error _ => none

end Sys2Proof.Machine
end

