-- ==== Sys2Proof/Config.lean ====
section
/-! DEFINITION. What is fixed for the block (R6) and the two named open parameters (R7). -/

namespace Sys2Proof.Config

/-- `W`, the codeword width (R6). -/
def codewordWidth : Nat := 64

/-- `K`, the payload width (R6). -/
def payloadWidth : Nat := 57

/-- `NP`, the number of positional parity bits (R6). -/
def positionalParityBits : Nat := 6

/-- The number of extended parity bits (R6). -/
def extendedParityBits : Nat := 1

/-- All check bits, 7 = 64 - 57 (R6). -/
def checkBits : Nat := positionalParityBits + extendedParityBits

/-- The syndrome's width (R6). -/
def syndromeWidth : Nat := 6

/-- `CodewordByteOrder` (R7, R42, D10): which byte of a word a host keeps at each of its eight byte places.
OPEN in the spec, so without a body, and read by no rule of the block.
DESIGN CHOICE (log 8): a serialisation moves whole bytes. -/
opaque codewordByteOrder : Fin 8 → Fin 8

/-- `Latency` (R7, R239, D18): the time from a request to its response, independent of the input.
OPEN in the spec, so without a body, and read by no rule (log 9). -/
opaque latency : Nat

end Sys2Proof.Config
end

