-- ==== Sys2Proof/Machine/Ports.lean ====
section
/-! DEFINITION. The sub-blocks as their ports show them (R24) and the unified request interface (R25). Outputs are functions of
inputs: the block is combinational (D1), so none of this is state. -/

namespace Sys2Proof.Machine

/-- The outputs of bit_repositioner (R24). -/
structure RepositionerPorts where
  sparseOut : Word
  payloadOut : Word
  deriving DecidableEq, Repr

/-- bit_repositioner: its two directions (R2, R24). -/
def bitRepositioner (payloadIn sparseIn : Word) : RepositionerPorts :=
  { sparseOut := repos payloadIn, payloadOut := unrepos sparseIn }

/-- parity_syndrome_calculator: `word` to `gp` (R24, R141). -/
def paritySyndromeCalculator (word : Word) : BitVec 6 := gp word

/-- hamming_64_57_encoder: `payload` to `codeword` (R24, R147). -/
def hammingEncoder (payload : Word) : Word := enc payload

/-- The outputs of hamming_64_57_decoder (R24). -/
structure DecoderPorts where
  syndrome : BitVec 6
  corrected : Word
  dataOut : Word
  ok : Bool
  deriving DecidableEq, Repr

/-- hamming_64_57_decoder: one `ok` port serves `correctBlock` and `decode` (R24, R176). -/
def hammingDecoder (wordIn : Word) : DecoderPorts :=
  { syndrome := Machine.syndrome wordIn, corrected := (corr wordIn).word,
    dataOut := (dec wordIn).word, ok := (corr wordIn).ok }

/-- The response to a request, a function of that request alone; none where it is refused (R20, R25, R67). -/
def answer : Instr → Option Response
  | .popcount w => some (responsePopcount w)
  | .reposition w => some (responseReposition w)
  | .unreposition w => some (responseUnreposition w)
  | .setParity w => responseSetParity w
  | .encode w => some (responseEncode w)
  | .findErrorPosition w => some (responseFindErrorPosition w)
  | .correctBlock w => some (responseCorrectBlock w)
  | .decode w => some (responseDecode w)

/-- The unified request interface: 67 bits in, 65 bits out (R25, R65, R66). -/
def unifiedInterface (request : BitVec 67) : Option (BitVec 65) :=
  (answer (decodeRequest request)).map Response.pack

/-- The bytes a host keeps a word in, under a byte order given as an argument (R42, D10). Nothing of the block reads it (log 8). -/
def storedBytes (order : Fin 8 → Fin 8) (w : Word) : List Byte :=
  (List.finRange 8).map fun i => w.extractLsb' (8 * (order i).val) 8

end Sys2Proof.Machine
end

