-- ==== Sys2Proof/Safety.lean ====
section
/-! DEFINITION. The terms claims are made in: valid payloads and codewords, the host's duties (R232 to R236), a safe run, and
the invariant of the machine. -/

namespace Sys2Proof.Machine

/-- `payload < 2^57` (R26). -/
def validPayload (p : Word) : Prop := p.toNat < 2 ^ 57

/-- `2^57 - 1`, the payload bits of a 64-bit value (R121). -/
def payloadMask : Word := 0x01FFFFFFFFFFFFFF#64

/-- `S(c) = 0` and `parity(c) = 0` (R14, R182). -/
def validCodeword (c : Word) : Prop := syndrome c = 0#6 ∧ parity c = false

/-- R232: `setParity` only with the parity positions at 0. -/
def dutySetParity (i : Instr) : Bool := i.wellFormed

/-- R233: payloads below 2^57, where the host relies on recovering them. -/
def dutyPayload (i : Instr) : Bool := !i.takesPayload || decide (i.operand.toNat < 2 ^ 57)

/-- R234: the worker that reads or writes `slot` is not beside another that mutates it. -/
def dutyStorage (s : State) (worker slot : Nat) : Bool := !s.mutatedByOther worker slot

/-- R236: what the host may rely on `decode` for: at most two corrupted bits between `sent` and `received`. -/
def dutyErrors (sent received : Word) : Bool := decide (popcount (sent ^^^ received) ≤ 2)

/-- A run of `k` steps that no refusal has ended (R241). -/
def safeRun (k : Nat) (s : State) : Prop :=
  ∃ t : State, Host.Core.run core k s = .next t

/-- The step from `s` takes its first act off, leaving `rest`, and puts `v` into `slot`: every other slot reads as before and no
other field changes (R29, R240). -/
def State.stepWrites (s : State) (rest : List HostAct) (slot : Nat) (v : Word) : Prop :=
  ∃ m : Storage, step s = .next { s with pending := rest, storage := m } ∧ Keyed.get m slot = some v ∧
    ∀ a, a ≠ slot → Keyed.get m a = Keyed.get s.storage a

/-- A response belongs to its own request: it is what that request's rule gives, whatever else happened (R20, R47, R230). -/
def Delivery.genuine (d : Delivery) : Prop := answer d.request = some d.response

/-- The invariant: storage and the in-place table are canonical, every response received is that of its own request, and
every operation in place has its response. -/
def State.Inv (s : State) : Prop :=
  Keyed.wf s.storage = true ∧ Keyed.wf s.inPlace = true ∧
    (∀ d ∈ s.transcript, d.genuine) ∧
    (∀ slot p, Keyed.get s.inPlace slot = some p → p.index < s.transcript.length)

end Sys2Proof.Machine
end

