-- ==== Sys2Proof/Certificates/Slice0/Obligations.lean ====
section
/-! DEFINITION. The statements for the provers. Each docstring names the rule it formalises; where a clause is an inference
the spec itself marks as its own, or rests on a choice of the model's, the docstring says so. -/

open Sys2Proof Sys2Proof.Machine

/-! ## Requests and responses -/

/-- R65: bits 66:64 of a request select the operation and bits 63:0 are its operand; all eight values of `op` are operations. -/
def Obligations.RequestFieldsSelectTheOperation : Prop :=
  ∀ (op : BitVec 3) (x : Word),
    (op = 0b000#3 → decodeRequest (op ++ x) = .popcount x) ∧
    (op = 0b001#3 → decodeRequest (op ++ x) = .reposition x) ∧
    (op = 0b010#3 → decodeRequest (op ++ x) = .unreposition x) ∧
    (op = 0b011#3 → decodeRequest (op ++ x) = .setParity x) ∧
    (op = 0b100#3 → decodeRequest (op ++ x) = .encode x) ∧
    (op = 0b101#3 → decodeRequest (op ++ x) = .findErrorPosition x) ∧
    (op = 0b110#3 → decodeRequest (op ++ x) = .correctBlock x) ∧
    (op = 0b111#3 → decodeRequest (op ++ x) = .decode x)

/-- R70, R65: decoding is total and loses nothing: requests and operations with their operands correspond one to one. -/
def Obligations.DecodingAndEncodingAreInverse : Prop :=
  (∀ i : Instr, decodeRequest (encodeRequest i) = i) ∧
  (∀ q : BitVec 67, encodeRequest (decodeRequest q) = q)

/-- R67, R71: packed requests written out from the opcode map, one for each operation, decode to it.
Derived: that bit 67 is refused is the model's reading of the 67-bit port (log 13). -/
def Obligations.WrittenRequestsDecode : Prop :=
  decodeTableWord 72 0x00123456789ABCDEF = some (.popcount 0x0123456789ABCDEF#64) ∧
  decodeTableWord 72 0x10000000000000010 = some (.reposition 0x10#64) ∧
  decodeTableWord 72 0x28000000000000000 = some (.unreposition 0x8000000000000000#64) ∧
  decodeTableWord 72 0x3FFFFFFFEFFFEFEE8 = some (.setParity 0xFFFFFFFEFFFEFEE8#64) ∧
  decodeTableWord 72 0x40000000000000001 = some (.encode 0x1#64) ∧
  decodeTableWord 72 0x591A2B3E46AF3BDF9 = some (.findErrorPosition 0x91A2B3E46AF3BDF9#64) ∧
  decodeTableWord 72 0x6FFFFFFFEFFFFFFFF = some (.correctBlock 0xFFFFFFFEFFFFFFFF#64) ∧
  decodeTableWord 72 0x70000006FAB6EDCEC = some (.decode 0x0000006FAB6EDCEC#64) ∧
  decodeTableWord 72 0x80000000000000000 = none

/-- R66: a response is 65 bits, `ok` in bit 64 above `result`; the six operations with no failure mode answer `ok = 1`; a refused request has no response. -/
def Obligations.ResponseFormat : Prop :=
  (∀ r : Response, r.pack.getLsbD 64 = r.ok ∧ r.pack.extractLsb' 0 64 = r.result) ∧
  (∀ (i : Instr) (r : Response), answer i = some r → i.canFail = false → r.ok = true) ∧
  (∀ q : BitVec 67, (decodeRequest q).wellFormed = false → unifiedInterface q = none) ∧
  (∀ q : BitVec 67, (decodeRequest q).wellFormed = true →
    ∃ r, answer (decodeRequest q) = some r ∧ unifiedInterface q = some r.pack)

/-- R71: a request written `<mnemonic> <operand>` and a packed request written in 17 digits read back as the same request. -/
def Obligations.WrittenFormReadsBack : Prop :=
  ∀ i : Instr, readRequest (writeRequest i) = some i ∧ readPacked (writePacked i) = some i

/-- R24 (with R100, R120, R123, R141, R147, R170, R174, R176): every output port carries its function, and the one `ok` port serves correctBlock and decode. -/
def Obligations.PortsCarryTheirFunctions : Prop :=
  (∀ x : Word, (popcount64 x).toNat = popcount x) ∧
  (∀ p w : Word, (bitRepositioner p w).sparseOut = repos p ∧ (bitRepositioner p w).payloadOut = unrepos w ∧
    (bitRepositioner p w).payloadOut.toNat < 2 ^ 57) ∧
  (∀ w : Word, paritySyndromeCalculator w = gp w) ∧
  (∀ p : Word, hammingEncoder p = enc p) ∧
  (∀ w : Word, (hammingDecoder w).syndrome = syndrome w ∧ (hammingDecoder w).corrected = (corr w).word ∧
    (hammingDecoder w).dataOut = (dec w).word ∧ (hammingDecoder w).ok = (corr w).ok ∧ (hammingDecoder w).ok = (dec w).ok)

/-! ## Statelessness, completion, frame -/

/-- R20, R47: every operation's response is a function of its request alone, whatever the state; every request but a refused `setParity` gets one. The response is chosen BEFORE the state. -/
def Obligations.EveryOperationAnswersFromItsRequestAlone : Prop :=
  ∀ x : Word,
    (∃ r, ∀ s, exec (.popcount x) s = .next (s.deliver (.popcount x) r)) ∧
    (∃ r, ∀ s, exec (.reposition x) s = .next (s.deliver (.reposition x) r)) ∧
    (∃ r, ∀ s, exec (.unreposition x) s = .next (s.deliver (.unreposition x) r)) ∧
    (parityPositionsZero x = true → ∃ r, ∀ s, exec (.setParity x) s = .next (s.deliver (.setParity x) r)) ∧
    (∃ r, ∀ s, exec (.encode x) s = .next (s.deliver (.encode x) r)) ∧
    (∃ r, ∀ s, exec (.findErrorPosition x) s = .next (s.deliver (.findErrorPosition x) r)) ∧
    (∃ r, ∀ s, exec (.correctBlock x) s = .next (s.deliver (.correctBlock x) r)) ∧
    (∃ r, ∀ s, exec (.decode x) s = .next (s.deliver (.decode x) r))

/-- The frame of all eight operations (R20, R40, R41): the block writes nothing of the host's. Only the host's list of responses grows, by the one response (log 2), and every slot reads as before. -/
def Obligations.OperationsLeaveTheHostsStateAlone : Prop :=
  ∀ (i : Instr) (s t : State), exec i s = .next t →
    t.pending = s.pending ∧ t.port = s.port ∧ t.storage = s.storage ∧ t.inPlace = s.inPlace ∧
    (∀ slot, Keyed.get t.storage slot = Keyed.get s.storage slot) ∧
    ∃ r, answer i = some r ∧ t.transcript = s.transcript ++ [{ port := s.port, request := i, response := r }]

/-- R200, R202: no fault, whatever is pending; the only refusal of a request is setParity's; `ok = 0` comes from correctBlock and decode alone. -/
def Obligations.OnlyOkReportsFailure : Prop :=
  (∀ (s : State) (f : Fault), step s ≠ .fault f) ∧
  (∀ (i : Instr) (s : State) (e : Refusal), exec i s = .refused e →
    e = .setParity_parity_positions_nonzero ∧ i.wellFormed = false) ∧
  (∀ (i : Instr) (r : Response), answer i = some r → r.ok = false → ∃ w, i = .correctBlock w ∨ i = .decode w)

/-! ## popcount_64 -/

/-- R100, R101: `popcount` answers the number of set bits, zero extended, with `ok = 1`. -/
def Obligations.PopcountCountsSetBits : Prop :=
  (∀ (x : Word) (s : State), ∃ r : Word,
    exec (.popcount x) s = .next (s.deliver (.popcount x) { result := r, ok := true }) ∧
    r.toNat = ∑ i ∈ Finset.range 64, (x.getLsbD i).toNat ∧
    r.toNat = (popcount64 x).toNat ∧ r.toNat < 2 ^ 7 ∧ (r.toNat = 64 ↔ x = 0xFFFFFFFFFFFFFFFF#64)) ∧
  responsePopcount 0x0#64 = { result := 0x0#64, ok := true } ∧
  responsePopcount 0xFFFFFFFFFFFFFFFF#64 = { result := 0x40#64, ok := true } ∧
  responsePopcount 0x0123456789ABCDEF#64 = { result := 0x20#64, ok := true }

/-- R102 (its XOR form and `count[0]` are the spec's own inference from R100). -/
def Obligations.ParityIsTheXorOfAllBits : Prop :=
  ∀ x : Word, parity x = decide ((∑ i ∈ Finset.range 64, (x.getLsbD i).toNat) % 2 = 1) ∧
    parity x = (popcount64 x).getLsbD 0 ∧
    parity x = (List.range 64).foldl (fun b i => b ^^ x.getLsbD i) false

/-- R104, the spec's own inference from R100: the arithmetic laws of popcount. -/
def Obligations.PopcountLaws : Prop :=
  (∀ a b : Word, popcount (a ^^^ b) + 2 * popcount (a &&& b) = popcount a + popcount b) ∧
  (∀ a b : Word, parity (a ^^^ b) = (parity a ^^ parity b)) ∧
  (∀ a : Word, popcount (~~~a) = 64 - popcount a) ∧
  (∀ a : Word, popcount a = 0 ↔ a = 0#64) ∧
  (∀ (a : Word) (i : Nat), i < 64 → parity (flipBit a i) = !parity a ∧
    (popcount (flipBit a i) = popcount a + 1 ∨ popcount (flipBit a i) + 1 = popcount a)) ∧
  (∀ (a : Word) (i j : Nat), i < 64 → j < 64 → i ≠ j → parity (flipBit (flipBit a i) j) = parity a ∧
    (popcount (flipBit (flipBit a i) j) = popcount a ∨ popcount (flipBit (flipBit a i) j) = popcount a + 2 ∨
      popcount (flipBit (flipBit a i) j) + 2 = popcount a)) ∧
  (∀ a : Word, popcount a ≤ 64)

/-! ## The constant tables and the layout -/

/-- R61: `PARITY_MASK` has exactly the bits of `PPOS`, and `DATA_MASK` is its complement, 57 bits. -/
def Obligations.ParityPositionMasks : Prop :=
  (∀ i : Nat, i < 64 → parityMask.getLsbD i = decide (i ∈ [0, 1, 2, 4, 8, 16, 32])) ∧
  dataMask = ~~~parityMask ∧ popcount dataMask = 57 ∧
  parityMask = 0x0000000100010117#64 ∧ dataMask = 0xFFFFFFFEFFFEFEE8#64

/-- R62: `DPOS(i)` is the `i`-th position, ascending, outside `PPOS`; it is strictly increasing, its image is `DATA_MASK`, and `DPOS(56) = 63` (the closed form and these facts are the spec's own inference). -/
def Obligations.PayloadPositions : Prop :=
  payloadPositions.length = 57 ∧
  (∀ i : Nat, i < 57 → payloadPositions[i]? = some (dpos i)) ∧
  (∀ i j : Nat, i < j → dpos i < dpos j) ∧
  (∀ j : Nat, j < 64 → (dataMask.getLsbD j = true ↔ ∃ i, i < 57 ∧ dpos i = j)) ∧
  dpos 56 = 63

/-- R140: `M_k` is the set of positions whose index has bit `k` set, with the values of the rule's table, 32 positions each. -/
def Obligations.ParityGroupMasks : Prop :=
  (∀ (k : Fin 6) (i : Nat), i < 64 → (groupMask k).getLsbD i = i.testBit k.val) ∧
  (∀ k : Fin 6, popcount (groupMask k) = 32) ∧
  groupMask 0 = 0xAAAAAAAAAAAAAAAA#64 ∧ groupMask 1 = 0xCCCCCCCCCCCCCCCC#64 ∧
  groupMask 2 = 0xF0F0F0F0F0F0F0F0#64 ∧ groupMask 3 = 0xFF00FF00FF00FF00#64 ∧
  groupMask 4 = 0xFFFF0000FFFF0000#64 ∧ groupMask 5 = 0xFFFFFFFF00000000#64

/-- R60, the spec's own inference from R61 and R62: the fields of the codeword of a payload. -/
def Obligations.CodewordFields : Prop :=
  ∀ p : Word,
    (enc p).extractLsb' 33 31 = p.extractLsb' 26 31 ∧
    (enc p).extractLsb' 17 15 = p.extractLsb' 11 15 ∧
    (enc p).extractLsb' 9 7 = p.extractLsb' 4 7 ∧
    (enc p).extractLsb' 5 3 = p.extractLsb' 1 3 ∧
    (enc p).extractLsb' 3 1 = p.extractLsb' 0 1 ∧
    (∀ k : Fin 6, (enc p).getLsbD (2 ^ k.val) = parity (repos p &&& groupMask k)) ∧
    (enc p).getLsbD 0 = parity (enc p &&& ~~~1#64)

/-- R63: a valid payload has bits 63:57 zero, an operation taking a payload ignores bits 63:57, and a payload the block produces has them 0. -/
def Obligations.PayloadFormat : Prop :=
  (∀ p : Word, validPayload p ↔ p.extractLsb' 57 7 = 0#7) ∧
  (∀ p q : Word, p.extractLsb' 0 57 = q.extractLsb' 0 57 →
    answer (.reposition p) = (answer (.reposition q)) ∧ answer (.encode p) = answer (.encode q)) ∧
  (∀ w : Word, ∃ r, answer (.unreposition w) = some r ∧ r.result.extractLsb' 57 7 = 0#7) ∧
  (∀ w : Word, ∃ r, answer (.decode w) = some r ∧ (r.ok = true → r.result.extractLsb' 57 7 = 0#7))

/-! ## bit_repositioner -/

/-- R120, R122: `reposition` puts payload bit `i` at the `i`-th payload position, leaves every parity position 0, and answers `ok = 1`. -/
def Obligations.RepositionScattersThePayload : Prop :=
  (∀ (p : Word) (s : State), ∃ r : Word,
    exec (.reposition p) s = .next (s.deliver (.reposition p) { result := r, ok := true }) ∧
    (∀ i j : Nat, payloadPositions[i]? = some j → r.getLsbD j = p.getLsbD i) ∧
    (∀ j ∈ parityPositions, r.getLsbD j = false) ∧ r &&& parityMask = 0#64 ∧
    ∀ w, (bitRepositioner p w).sparseOut = r) ∧
  responseReposition 0x0#64 = { result := 0x0#64, ok := true } ∧
  responseReposition 0x01FFFFFFFFFFFFFF#64 = { result := 0xFFFFFFFEFFFEFEE8#64, ok := true } ∧
  responseReposition 0x0200000000000000#64 = { result := 0x0#64, ok := true } ∧
  responseReposition 0xFFFFFFFFFFFFFFFF#64 = { result := 0xFFFFFFFEFFFEFEE8#64, ok := true } ∧
  responseReposition 0x1#64 = { result := 0x8#64, ok := true }

/-- R121: bits 63:57 of a payload are dropped silently, with `ok = 1`. -/
def Obligations.OutOfRangePayloadBitsAreDropped : Prop :=
  ∀ (p : Word) (s : State),
    repos p = repos (p &&& 0x01FFFFFFFFFFFFFF#64) ∧
    exec (.reposition p) s = .next (s.deliver (.reposition p) { result := repos (p &&& 0x01FFFFFFFFFFFFFF#64), ok := true })

/-- R120 and R123, the field forms (the spec's own inference from the closed form of R62). -/
def Obligations.RepositioningByFields : Prop :=
  (∀ p : Word, repos p = (zext64 (p.extractLsb' 0 1) <<< 3) ||| (zext64 (p.extractLsb' 1 3) <<< 5) |||
    (zext64 (p.extractLsb' 4 7) <<< 9) ||| (zext64 (p.extractLsb' 11 15) <<< 17) |||
    (zext64 (p.extractLsb' 26 31) <<< 33)) ∧
  (∀ w : Word, unrepos w = zext64 (w.extractLsb' 3 1) ||| (zext64 (w.extractLsb' 5 3) <<< 1) |||
    (zext64 (w.extractLsb' 9 7) <<< 4) ||| (zext64 (w.extractLsb' 17 15) <<< 11) |||
    (zext64 (w.extractLsb' 33 31) <<< 26))

/-- R123, R124: `unreposition` gathers the payload positions, ignores the parity positions, and answers `ok = 1`. -/
def Obligations.UnrepositionGathersThePayload : Prop :=
  (∀ (w : Word) (s : State), ∃ r : Word,
    exec (.unreposition w) s = .next (s.deliver (.unreposition w) { result := r, ok := true }) ∧
    (∀ i j : Nat, payloadPositions[i]? = some j → r.getLsbD i = w.getLsbD j) ∧ r.toNat < 2 ^ 57 ∧
    r = unrepos (w &&& dataMask) ∧ ∀ p, (bitRepositioner p w).payloadOut = r) ∧
  responseUnreposition 0x0000000100010117#64 = { result := 0x0#64, ok := true } ∧
  responseUnreposition 0xFFFFFFFFFFFFFFFF#64 = { result := 0x01FFFFFFFFFFFFFF#64, ok := true } ∧
  responseUnreposition 0x8000000000000000#64 = { result := 0x0100000000000000#64, ok := true } ∧
  responseUnreposition 0x8#64 = { result := 0x1#64, ok := true }

/-- R125: `UNREPOS(REPOS(p)) = p` for every payload below 2^57. -/
def Obligations.RepositioningRoundTrip : Prop :=
  ∀ p : Word, validPayload p → unrepos (repos p) = p

/-- R125, R126, R127, the spec's own inferences: the round trips on all words, linearity, and the bijection. -/
def Obligations.RepositioningIsALinearBijection : Prop :=
  (∀ p : Word, unrepos (repos p) = p &&& payloadMask) ∧
  (∀ w : Word, repos (unrepos w) = w &&& dataMask) ∧
  (∀ a b : Word, repos (a ^^^ b) = repos a ^^^ repos b) ∧
  (∀ a b : Word, unrepos (a ^^^ b) = unrepos a ^^^ unrepos b) ∧
  Set.BijOn repos {p | validPayload p} {w | w &&& parityMask = 0#64} ∧
  (∀ w : Word, w &&& parityMask = 0#64 → repos (unrepos w) = w ∧ validPayload (unrepos w))

/-! ## parity_syndrome_calculator and hamming_64_57_encoder -/

/-- R141: bit `k` of `GP(w)`, which the `gp` port carries, is the parity of the bits of `w` whose index has bit `k` set. -/
def Obligations.GroupParities : Prop :=
  ∀ (w : Word) (k : Fin 6), (gp w).getLsbD k.val = parity (w &&& groupMask k) ∧
    (paritySyndromeCalculator w).getLsbD k.val = parity (w &&& groupMask k) ∧
    (gp w).getLsbD k.val =
      decide ((∑ i ∈ (Finset.range 64).filter (fun i => i.testBit k.val = true), (w.getLsbD i).toNat) % 2 = 1)

/-- R142, the spec's own inference from R140: a write to one check position changes no other group's parity, and each payload position is in at least two groups. -/
def Obligations.CheckPositionsAreIndependent : Prop :=
  (∀ j k : Fin 6, (groupMask k).getLsbD (2 ^ j.val) = decide (j = k)) ∧
  (∀ k : Fin 6, (groupMask k).getLsbD 0 = false) ∧
  (∀ j : Nat, j < 64 → j ∉ parityPositions →
    ∃ k l : Fin 6, k ≠ l ∧ (groupMask k).getLsbD j = true ∧ (groupMask l).getLsbD j = true) ∧
  (∀ (w : Word) (b : Bool) (j k : Fin 6), j ≠ k → (gp (setBit w (2 ^ j.val) b)).getLsbD k.val = (gp w).getLsbD k.val) ∧
  (∀ (w : Word) (b : Bool), gp (setBit w 0 b) = gp w)

/-- R143: on a word with the parity positions 0, `setParity` answers the word with each positional parity bit the parity of its group and the extended parity bit that of the whole resulting word, so even parity overall. -/
def Obligations.SetParityWritesTheCheckBits : Prop :=
  ∀ (w : Word) (s : State), w &&& 0x0000000100010117#64 = 0#64 → ∃ r : Word,
    exec (.setParity w) s = .next (s.deliver (.setParity w) { result := r, ok := true }) ∧
    (∀ j : Nat, j ∉ [0, 1, 2, 4, 8, 16, 32] → r.getLsbD j = w.getLsbD j) ∧
    (∀ k : Fin 6, r.getLsbD (2 ^ k.val) = parity (w &&& groupMask k)) ∧
    r.getLsbD 0 = parity (r &&& ~~~1#64) ∧ parity r = false

/-- R145, R146: `setParity` is refused, with the named refusal and no response, exactly where a parity position of the operand is not 0; elsewhere it answers `SETPAR(operand)` with `ok = 1`. `REPOS` never violates the precondition. -/
def Obligations.SetParityPrecondition : Prop :=
  (∀ (w : Word) (s : State), w &&& 0x0000000100010117#64 ≠ 0#64 →
    exec (.setParity w) s = .refused .setParity_parity_positions_nonzero ∧ answer (.setParity w) = none) ∧
  (∀ (w : Word) (s : State), w &&& 0x0000000100010117#64 = 0#64 →
    exec (.setParity w) s = .next (s.deliver (.setParity w) { result := setpar w, ok := true })) ∧
  (∀ p : Word, repos p &&& 0x0000000100010117#64 = 0#64) ∧
  responseSetParity 0x0#64 = some { result := 0x0#64, ok := true } ∧
  responseSetParity 0xFFFFFFFEFFFEFEE8#64 = some { result := 0xFFFFFFFFFFFFFFFF#64, ok := true } ∧
  responseSetParity 0x1#64 = none ∧
  responseSetParity 0x8#64 = some { result := 0xF#64, ok := true }

/-- R144 (the parallel form is the spec's own inference): `PX = parity(w) ^ XOR g[k]`; and for some word the other order gives no valid codeword, where this order does. -/
def Obligations.ExtendedParityComesLast : Prop :=
  (∀ w : Word, w &&& parityMask = 0#64 →
    (setpar w).getLsbD 0 = (parity w ^^ (List.range 6).foldl (fun b k => b ^^ (gp w).getLsbD k) false)) ∧
  (∃ w : Word, w &&& parityMask = 0#64 ∧ validCodeword (setpar w) ∧
    ¬ validCodeword (writePositional (gp w) (setBit w 0 (parity w)) 6))

/-- R147, R148: `encode` answers `SETPAR(REPOS(payload))` with `ok = 1`, on every operand. -/
def Obligations.EncodeSetsParityOfTheScatteredPayload : Prop :=
  (∀ (p : Word) (s : State),
    exec (.encode p) s = .next (s.deliver (.encode p) { result := setpar (repos p), ok := true }) ∧
    enc p = enc (p &&& 0x01FFFFFFFFFFFFFF#64) ∧
    hammingEncoder p = setpar (repos p)) ∧
  responseEncode 0x0#64 = { result := 0x0#64, ok := true } ∧
  responseEncode 0x0200000000000000#64 = { result := 0x0#64, ok := true } ∧
  responseEncode 0xFFFFFFFFFFFFFFFF#64 = { result := 0xFFFFFFFFFFFFFFFF#64, ok := true } ∧
  responseEncode 0x0123456789ABCDEF#64 = { result := 0x91A2B3C46AF3BDF9#64, ok := true }

/-- R149: every parity group of an encoded word, and the whole word, has even parity. -/
def Obligations.EncodedWordsHaveEvenParity : Prop :=
  ∀ p : Word, gp (enc p) = 0#6 ∧ parity (enc p) = false ∧ popcount (enc p) % 2 = 0

/-- R149 (third clause), R151 and a corner case of R148, the spec's own inferences: the encoder keeps the payload, is linear, is the XOR of the codewords of the payload's bits, and is injective on payloads. -/
def Obligations.EncoderIsLinearAndInjective : Prop :=
  (∀ p : Word, unrepos (enc p) = p &&& payloadMask) ∧
  (∀ a b : Word, enc (a ^^^ b) = enc a ^^^ enc b) ∧ enc 0#64 = 0#64 ∧
  enc 0x01FFFFFFFFFFFFFF#64 = 0xFFFFFFFFFFFFFFFF#64 ∧
  (∀ p : Word, enc p =
    (List.range 57).foldl (fun c i => if p.getLsbD i then c ^^^ enc (1#64 <<< i) else c) 0#64) ∧
  Set.InjOn enc {p | validPayload p}

/-- R150, the spec's own inference: the seven check bits as parities of the payload under the masks of the rule's table. -/
def Obligations.PayloadSideCheckEquations : Prop :=
  (∀ p : Word,
    (enc p).getLsbD 1 = parity (p &&& 0x0155555556AAAD5B#64) ∧
    (enc p).getLsbD 2 = parity (p &&& 0x019999999B33366D#64) ∧
    (enc p).getLsbD 4 = parity (p &&& 0x01E1E1E1E3C3C78E#64) ∧
    (enc p).getLsbD 8 = parity (p &&& 0x01FE01FE03FC07F0#64) ∧
    (enc p).getLsbD 16 = parity (p &&& 0x01FFFE0003FFF800#64) ∧
    (enc p).getLsbD 32 = parity (p &&& 0x01FFFFFFFC000000#64) ∧
    (enc p).getLsbD 0 = parity (p &&& 0x012CD2D32DA65CB7#64)) ∧
  unrepos (groupMask 0) = 0x0155555556AAAD5B#64 ∧ unrepos (groupMask 1) = 0x019999999B33366D#64 ∧
  unrepos (groupMask 2) = 0x01E1E1E1E3C3C78E#64 ∧ unrepos (groupMask 3) = 0x01FE01FE03FC07F0#64 ∧
  unrepos (groupMask 4) = 0x01FFFE0003FFF800#64 ∧ unrepos (groupMask 5) = 0x01FFFFFFFC000000#64

/-- R152, the spec's own inference: the check bits of every single-bit payload, and rows of the generator table. -/
def Obligations.GeneratorTable : Prop :=
  (∀ i : Nat, i < 57 →
    (∀ j : Nat, j < 64 → j ∉ parityPositions → (enc (1#64 <<< i)).getLsbD j = decide (j = dpos i)) ∧
    (∀ k : Fin 6, (enc (1#64 <<< i)).getLsbD (2 ^ k.val) = (dpos i).testBit k.val) ∧
    (enc (1#64 <<< i)).getLsbD 0 = decide ((1 + popcount (BitVec.ofNat 64 (dpos i))) % 2 = 1)) ∧
  enc (1#64 <<< 0) = 0x000000000000000F#64 ∧ enc (1#64 <<< 3) = 0x0000000000000096#64 ∧
  enc (1#64 <<< 10) = 0x0000000000008117#64 ∧ enc (1#64 <<< 25) = 0x0000000080010116#64 ∧
  enc (1#64 <<< 26) = 0x0000000300000003#64 ∧ enc (1#64 <<< 41) = 0x0001000100010001#64 ∧
  enc (1#64 <<< 56) = 0x8000000100010117#64

/-! ## hamming_64_57_decoder -/

/-- R170, R171: `findErrorPosition` answers the 6-bit syndrome, zero extended, with `ok = 1`. -/
def Obligations.FindErrorPositionAnswersTheSyndrome : Prop :=
  (∀ (w : Word) (s : State), ∃ r : Word,
    exec (.findErrorPosition w) s = .next (s.deliver (.findErrorPosition w) { result := r, ok := true }) ∧
    r.toNat = (syndrome w).toNat ∧ r.toNat < 64 ∧
    r.toNat = ∑ k : Fin 6, (parity (w &&& groupMask k)).toNat * 2 ^ k.val ∧
    r.toNat = (hammingDecoder w).syndrome.toNat) ∧
  (∀ c : Word, validCodeword c → responseFindErrorPosition c = { result := 0x0#64, ok := true }) ∧
  responseFindErrorPosition 0x1#64 = { result := 0x0#64, ok := true } ∧
  responseFindErrorPosition 0x8000000000000000#64 = { result := 63#64, ok := true } ∧
  responseFindErrorPosition 0xFFFFFFFFFFFFFFFF#64 = { result := 0x0#64, ok := true } ∧
  responseFindErrorPosition 0x91A2B3E46AF3BDF9#64 = { result := 0x25#64, ok := true }

/-- R172, the spec's own inference: the laws of the syndrome. -/
def Obligations.SyndromeLaws : Prop :=
  (∀ a b : Word, syndrome (a ^^^ b) = syndrome a ^^^ syndrome b) ∧
  (∀ p : Nat, p < 64 → syndrome (1#64 <<< p) = BitVec.ofNat 6 p) ∧
  (∀ c e : Word, validCodeword c → syndrome (c ^^^ e) = syndrome e ∧ parity (c ^^^ e) = parity e) ∧
  (∀ (c : Word) (p q : Nat), validCodeword c → p < 64 → q < 64 → p ≠ q →
    syndrome (flipBit c p) = BitVec.ofNat 6 p ∧
    (syndrome (flipBit (flipBit c p) q)).toNat = p ^^^ q ∧ syndrome (flipBit (flipBit c p) q) ≠ 0#6 ∧
    parity (flipBit (flipBit c p) q) = false)

/-- R173: total parity is popcount mod 2, bit 0 of the sub-block's count. -/
def Obligations.TotalParity : Prop :=
  ∀ w : Word, (parity w).toNat = popcount w % 2 ∧ parity w = (popcount64 w).getLsbD 0

/-- R174, R175: the SEC-DED decision table of `correctBlock`, total parity first. -/
def Obligations.CorrectBlockFollowsTheDecisionTable : Prop :=
  (∀ (w : Word) (s : State),
    (parity w = true →
      exec (.correctBlock w) s = .next (s.deliver (.correctBlock w) { result := w ^^^ (1#64 <<< (syndrome w).toNat), ok := true })) ∧
    (parity w = false → syndrome w = 0#6 →
      exec (.correctBlock w) s = .next (s.deliver (.correctBlock w) { result := w, ok := true })) ∧
    (parity w = false → syndrome w ≠ 0#6 →
      exec (.correctBlock w) s = .next (s.deliver (.correctBlock w) { result := w, ok := false })) ∧
    exec (.correctBlock w) s =
      .next (s.deliver (.correctBlock w) { result := (hammingDecoder w).corrected, ok := (hammingDecoder w).ok })) ∧
  responseCorrectBlock 0x1#64 = { result := 0x0#64, ok := true } ∧
  responseCorrectBlock 0x3#64 = { result := 0x3#64, ok := false } ∧
  responseCorrectBlock 0xFFFFFFFFFFFFFFFF#64 = { result := 0xFFFFFFFFFFFFFFFF#64, ok := true } ∧
  responseCorrectBlock 0x8000000000000000#64 = { result := 0x0#64, ok := true } ∧
  responseCorrectBlock 0x91A2B3E46AF3BDF9#64 = { result := 0x91A2B3C46AF3BDF9#64, ok := true }

/-- R176, R177: `decode` answers the payload of the corrected word with `ok = 1`, or the operand unchanged with `ok = 0`. -/
def Obligations.DecodeAnswersThePayloadOrTheWord : Prop :=
  (∀ (w : Word) (s : State),
    ((corr w).ok = true →
      exec (.decode w) s = .next (s.deliver (.decode w) { result := unrepos (corr w).word, ok := true }) ∧
      (unrepos (corr w).word).toNat < 2 ^ 57) ∧
    ((corr w).ok = false →
      exec (.decode w) s = .next (s.deliver (.decode w) { result := w, ok := false })) ∧
    exec (.decode w) s =
      .next (s.deliver (.decode w) { result := (hammingDecoder w).dataOut, ok := (corr w).ok })) ∧
  responseDecode 0x0#64 = { result := 0x0#64, ok := true } ∧
  (∀ p : Nat, p < 64 → responseDecode (1#64 <<< p) = { result := 0x0#64, ok := true }) ∧
  responseDecode 0x3#64 = { result := 0x3#64, ok := false } ∧
  responseDecode 0xFFFFFFFFFFFFFFFF#64 = { result := 0x01FFFFFFFFFFFFFF#64, ok := true } ∧
  responseDecode 0x91A2B3E46AF3BDF9#64 = { result := 0x0123456789ABCDEF#64, ok := true }

/-- R178, the spec's own inference from R174: the class of a received word says what `CORR` does with it. -/
def Obligations.ClassificationOfReceivedWords : Prop :=
  ∀ w : Word,
    (classify w = .clean ↔ parity w = false ∧ syndrome w = 0#6) ∧
    (classify w = .singleCorrectable ↔ parity w = true) ∧
    (classify w = .doubleUncorrectable ↔ parity w = false ∧ syndrome w ≠ 0#6) ∧
    (classify w = .clean → corr w = { word := w, ok := true }) ∧
    (classify w = .singleCorrectable → corr w = { word := flipBit w (syndrome w).toNat, ok := true }) ∧
    (classify w = .doubleUncorrectable → corr w = { word := w, ok := false })

/-- R179, the guarantee of the code: for every payload below 2^57, the codeword `encode` answers decodes to the payload; with any one bit flipped it is corrected and decodes to the payload; with any two bits flipped `decode` reports failure and answers the word unchanged. -/
def Obligations.SingleErrorsCorrectedDoubleErrorsDetected : Prop :=
  ∀ (p : Word) (s : State), p.toNat < 2 ^ 57 → ∃ c : Word,
    exec (.encode p) s = .next (s.deliver (.encode p) { result := c, ok := true }) ∧
    (∀ t, exec (.decode c) t = .next (t.deliver (.decode c) { result := p, ok := true })) ∧
    (∀ (b : Nat) (t : State), b < 64 →
      exec (.correctBlock (flipBit c b)) t = .next (t.deliver (.correctBlock (flipBit c b)) { result := c, ok := true }) ∧
      exec (.decode (flipBit c b)) t = .next (t.deliver (.decode (flipBit c b)) { result := p, ok := true })) ∧
    (∀ (b d : Nat) (t : State), b < 64 → d < 64 → b ≠ d →
      exec (.decode (flipBit (flipBit c b) d)) t =
        .next (t.deliver (.decode (flipBit (flipBit c b) d)) { result := flipBit (flipBit c b) d, ok := false }))

/-- R233, with R121 and R179: a payload of 2^57 or more is accepted and its bits 63:57 are lost, so the round trip through `encode` and
`decode` gives `p & (2^57 - 1)`; within the host's duty that is `p`. That `reposition` and `unreposition` give the same is the spec's own
inference (R125, second law). -/
def Obligations.LargerPayloadsLoseTheirHighBits : Prop :=
  ∀ (p : Word) (s : State),
    exec (.decode (enc p)) s = .next (s.deliver (.decode (enc p)) { result := p &&& 0x01FFFFFFFFFFFFFF#64, ok := true }) ∧
    exec (.unreposition (repos p)) s =
      .next (s.deliver (.unreposition (repos p)) { result := p &&& 0x01FFFFFFFFFFFFFF#64, ok := true }) ∧
    (dutyPayload (.encode p) = true ↔ p &&& 0x01FFFFFFFFFFFFFF#64 = p) ∧
    (dutyPayload (.reposition p) = true ↔ p &&& 0x01FFFFFFFFFFFFFF#64 = p)

/-- R235: the result of a failed `decode` is the still-corrupted codeword, unchanged, and no payload. -/
def Obligations.FailedDecodeGivesNoPayload : Prop :=
  ∀ w : Word, ((responseDecode w).ok = false ↔ (responseDecode w).payload = none) ∧
    ((responseDecode w).ok = false → (responseDecode w).result = w) ∧
    (∀ p, (responseDecode w).payload = some p → validPayload p)

/-- R236 with R179: within the host's duty, at most two corrupted bits, a `decode` that reports success answers the payload that was sent, and with at most one it reports success. -/
def Obligations.DecodeIsNeverWrongWithinTheDuty : Prop :=
  ∀ p w : Word, validPayload p → dutyErrors (enc p) w = true →
    ((dec w).ok = true → (dec w).word = p) ∧ ((dec w).ok = false → (dec w).word = w) ∧
    (popcount (enc p ^^^ w) ≤ 1 ↔ (dec w).ok = true)

/-- R180 (the consequences are the spec's own inference): three errors always give `ok = 1` with a valid codeword that is not the one sent and a wrong payload; a four-error pattern that is a codeword is reported clean with a wrong payload, any other gives `ok = 0`. -/
def Obligations.ThreeAndFourErrors : Prop :=
  (∀ p e : Word, validPayload p → popcount e = 3 →
    (corr (enc p ^^^ e)).ok = true ∧ validCodeword (corr (enc p ^^^ e)).word ∧
    (corr (enc p ^^^ e)).word ≠ enc p ∧ (dec (enc p ^^^ e)).ok = true ∧ (dec (enc p ^^^ e)).word ≠ p) ∧
  (∀ p e : Word, validPayload p → popcount e = 4 →
    (validCodeword e → corr (enc p ^^^ e) = { word := enc p ^^^ e, ok := true } ∧
      (dec (enc p ^^^ e)).ok = true ∧ (dec (enc p ^^^ e)).word ≠ p) ∧
    (¬ validCodeword e → dec (enc p ^^^ e) = { word := enc p ^^^ e, ok := false }))

/-- R181, the spec's own inference: a successful correction yields a valid codeword, and correcting again changes nothing. -/
def Obligations.CorrectionYieldsAValidCodeword : Prop :=
  ∀ w : Word, (corr w).ok = true → validCodeword (corr w).word ∧ corr (corr w).word = { word := (corr w).word, ok := true }

/-- R182, the spec's own inference: the valid codewords are exactly the encodings of payloads, and two distinct ones differ in at least 4 bits, a bound that is met. -/
def Obligations.ValidCodewordsAreTheEncodedPayloads : Prop :=
  (∀ c : Word, validCodeword c ↔ ∃ p, validPayload p ∧ enc p = c) ∧
  (∀ c : Word, validCodeword c → enc (unrepos c) = c) ∧
  (∀ c d : Word, validCodeword c → validCodeword d → c ≠ d → 4 ≤ popcount (c ^^^ d)) ∧
  (∃ c d : Word, validCodeword c ∧ validCodeword d ∧ popcount (c ^^^ d) = 4)

/-- R183, the spec's own inference: every bit of the received word counts: bit 0 changes the parity alone, every other bit the parity and the syndrome; and no word is rejected. -/
def Obligations.DecoderReadsItsWholeInput : Prop :=
  (∀ w : Word, parity (flipBit w 0) = !parity w ∧ syndrome (flipBit w 0) = syndrome w) ∧
  (∀ (w : Word) (b : Nat), 0 < b → b < 64 → parity (flipBit w b) = !parity w ∧ syndrome (flipBit w b) ≠ syndrome w) ∧
  (∀ b : Nat, b < 64 → ∃ w : Word, hammingDecoder (flipBit w b) ≠ hammingDecoder w) ∧
  (∀ w : Word, answer (.findErrorPosition w) ≠ none ∧ answer (.correctBlock w) ≠ none ∧ answer (.decode w) ≠ none)

/-! ## The machine -/

/-- A step whose pending act is a request runs exec of the decoded instruction, at the state with the act taken off and the request's instance driven (R65, R240; the queue and the instance number are logs 1 and 7, the packed word's place is log 12). -/
def Obligations.StepRunsTheDecodedRequest : Prop :=
  (∀ (s : State) (rest : List HostAct) (n : Nat) (q : BitVec 67), s.pending = .request n q :: rest →
    step s = exec (decodeRequest q) { s with pending := rest, port := n }) ∧
  (∀ (s : State) (nbits w : Nat) (i : Instr), decodeTableWord nbits w = some i →
    step (s.withFetchWord nbits w) = exec i s)

/-- R72, R41: a request on a stored word runs the operation on that word; the slot keeps its value (logs 3 and 4). -/
def Obligations.StoredOperandIsTheStoredWord : Prop :=
  ∀ (s : State) (rest : List HostAct) (worker n slot : Nat) (op : BitVec 3) (w : Word),
    s.pending = .requestStored worker n op slot :: rest → s.mutatedByOther worker slot = false →
    Keyed.get s.storage slot = some w →
    step s = exec (decodeFields op w) { s with pending := rest, port := n }

/-- R41: an operation in place. The block answers from the stored word; writing the result back is the host's next act; the slot then holds the result and every other slot reads as before. The mutation lasts
from the first step to the second, which ends it and no other (logs 1, 2, 4). That the table of mutations is canonical is part of
the invariant (EveryStepKeepsTheInvariant). -/
def Obligations.InPlaceOperationWritesTheResultBack : Prop :=
  ∀ (s : State) (rest : List HostAct) (worker n slot : Nat) (op : BitVec 3) (w : Word) (r : Response),
    s.pending = .requestInPlace worker n op slot :: .writeBack worker slot :: rest →
    s.mutatedByOther worker slot = false → Keyed.get s.storage slot = some w →
    answer (decodeFields op w) = some r →
    ∃ t u, step s = .next t ∧ t.storage = s.storage ∧
      Keyed.get t.inPlace slot = some { worker := worker, index := s.transcript.length } ∧
      step t = .next u ∧ u.pending = rest ∧
      (Keyed.wf s.inPlace = true → Keyed.get u.inPlace slot = none) ∧
      (∀ a, a ≠ slot → Keyed.get u.inPlace a = Keyed.get s.inPlace a) ∧
      Keyed.get u.storage slot = some r.result ∧
      (∀ a, a ≠ slot → Keyed.get u.storage a = Keyed.get s.storage a) ∧
      u.transcript = s.transcript ++ [{ port := n, request := decodeFields op w, response := r }]

/-- R48, R234, 93_implementation_defined.md: while one worker mutates a stored word, another that reads or writes it has a race, and the run is given no meaning (the refusal is log 4). -/
def Obligations.ReadBesideMutationIsRefused : Prop :=
  ∀ (s : State) (worker slot : Nat) (p : InPlace) (rest : List HostAct) (a : HostAct),
    Keyed.get s.inPlace slot = some p → p.worker ≠ worker → s.pending = a :: rest →
    ((∃ n op, a = .requestStored worker n op slot) ∨ (∃ n op, a = .requestInPlace worker n op slot) ∨
      a = .writeBack worker slot ∨ (∃ v, a = .store worker slot v) ∨ (∃ m, a = .flip worker slot m) ∨
      (∃ k, k < s.transcript.length ∧ a = .storeResult worker slot k) ∨
      (∃ target, a = .copy worker slot target) ∨
      (∃ source w, s.mutatedByOther worker source = false ∧ Keyed.get s.storage source = some w ∧
        a = .copy worker source slot)) →
    step s = .refused .storageRace

/-- R27, R29, R72, R240: what each act on host storage does when it goes through, a response kept (`<var> <- <mnemonic> <operand>`)
and the first store to an empty slot among them. The named word takes its value, and nothing else changes: no other word, and no
response (log 3; which acts there are is log 16). Noise needs no worker's leave, so it lands on a word being mutated too (log 17). -/
def Obligations.HostChangesOnlyTheNamedWord : Prop :=
  ∀ (s : State) (rest : List HostAct) (worker slot : Nat),
    (∀ w m, s.pending = .noise slot m :: rest → Keyed.get s.storage slot = some w → s.stepWrites rest slot (w ^^^ m)) ∧
    (s.mutatedByOther worker slot = false →
      (∀ v, s.pending = .store worker slot v :: rest → s.stepWrites rest slot v) ∧
      (∀ w m, s.pending = .flip worker slot m :: rest → Keyed.get s.storage slot = some w →
        s.stepWrites rest slot (w ^^^ m)) ∧
      (∀ k d, s.pending = .storeResult worker slot k :: rest → s.transcript[k]? = some d →
        s.stepWrites rest slot d.response.result) ∧
      (∀ source w, s.pending = .copy worker source slot :: rest → s.mutatedByOther worker source = false →
        Keyed.get s.storage source = some w → s.stepWrites rest slot w))

/-- R45: each step performs exactly one act; responses already received never change, and a step adds at most one. -/
def Obligations.OneActAStep : Prop :=
  ∀ s t : State, step s = .next t →
    (∃ a, s.pending = a :: t.pending) ∧ s.transcript <+: t.transcript ∧ t.transcript.length ≤ s.transcript.length + 1

/-- R47, R237: a run of requests, to any instances, gives each request the response of its own request, whatever precedes, follows or runs beside it, and touches nothing stored. -/
def Obligations.RunsAnswerEachRequestOnItsOwn : Prop :=
  ∀ (reqs : List (Nat × BitVec 67)) (s : State) (rest : List HostAct),
    s.pending = reqs.map (fun q => HostAct.request q.1 q.2) ++ rest →
    (∀ q ∈ reqs, (decodeRequest q.2).wellFormed = true) →
    ∃ (t : State) (ds : List Delivery), Host.Core.run core reqs.length s = .next t ∧
      t.pending = rest ∧ t.storage = s.storage ∧ t.inPlace = s.inPlace ∧
      t.transcript = s.transcript ++ ds ∧
      List.Forall₂ (fun q d => d.port = q.1 ∧ d.request = decodeRequest q.2 ∧ answer (decodeRequest q.2) = some d.response) reqs ds

/-- R241 (with D7): the refusal of a request is kept for the whole run. That nothing pending is refused is the model's (log 6). -/
def Obligations.RefusalIsKeptForTheWholeRun : Prop :=
  (∀ (k n : Nat) (s : State) (r : Refusal), Host.Core.run core k s = .refused r → Host.Core.run core (k + n) s = .refused r) ∧
  (∀ s : State, s.pending = [] ↔ step s = .refused .noRequest)

/-- The state before a run (R32, R230; the fields and their values are logs 1, 2, 3, 7 and 11) meets the invariant. -/
def Obligations.ResetMeetsTheInvariant : Prop :=
  State.reset.Inv ∧ State.reset.pending = [] ∧ State.reset.storage = [] ∧ State.reset.inPlace = [] ∧ State.reset.transcript = []

/-- Every step keeps the invariant: storage canonical, every response that of its own request (R20, R47, R230), every operation in place with its response (R41). -/
def Obligations.EveryStepKeepsTheInvariant : Prop :=
  ∀ s t : State, s.Inv → step s = .next t → t.Inv
end

