-- ==== Sys2Proof/Laws/Assembler.lean ====
section
/-! SUPPORT. Digits written and read, and the spelling of mnemonics (R71). -/

namespace Sys2Proof.Machine

/-- A digit written is read back. -/
theorem digitValue_hexChar : ∀ v < 16, digitValue 16 (hexChar v) = some v := by decide

@[simp] theorem length_hexDigits (n v : Nat) : (hexDigits n v).length = n := by
  induction n generalizing v with
  | zero => rfl
  | succ n ih => simp [hexDigits, ih]

/-- Digits are read from left to right. -/
theorem readDigits_append (base : Nat) (xs ys : List Char) (soFar : Nat) :
    readDigits base soFar (xs ++ ys) = (readDigits base soFar xs).bind fun v => readDigits base v ys := by
  induction xs generalizing soFar with
  | nil => rfl
  | cons c xs ih => simp only [List.cons_append, readDigits]; cases digitValue base c <;> simp [ih]

/-- No mnemonic holds a space, so the first space of a written request ends it. -/
theorem mnemonic_no_space (i : Instr) : ∀ c ∈ (mnemonic i).toList, (c != ' ') = true := by
  have h : (mnemonic i).toList.all (· != ' ') = true := by cases i <;> (simp only [mnemonic]; decide)
  exact fun c hc => List.all_eq_true.mp h c hc

end Sys2Proof.Machine
end

