-- ==== Sys2Proof/Laws/Bits.lean ====
section
/-! SUPPORT. The bits of the single-bit operations (R10). -/

namespace Sys2Proof.Machine

theorem getLsbD_one_shiftLeft (i j : Nat) :
    (1#64 <<< i).getLsbD j = (decide (j = i) && decide (j < 64)) := by
  rw [BitVec.getLsbD_shiftLeft, BitVec.getLsbD_one]
  have : (j - i = 0 ∧ ¬ j < i) ↔ j = i := by omega
  by_cases h : j = i
  · subst h; simp
  · by_cases hlt : j < i
    · simp [h, hlt]
    · have : j - i ≠ 0 := by omega
      simp [h, this]

theorem getLsbD_bitAt (b : Bool) (i j : Nat) :
    (bitAt b i).getLsbD j = (b && decide (j = i) && decide (j < 64)) := by
  cases b
  · simp [bitAt]
  · simpa [bitAt] using getLsbD_one_shiftLeft i j

theorem getLsbD_flipBit (v : Word) (i j : Nat) :
    (flipBit v i).getLsbD j = (v.getLsbD j ^^ (decide (j = i) && decide (j < 64))) := by
  rw [flipBit, BitVec.getLsbD_xor, getLsbD_one_shiftLeft]

theorem getLsbD_setBit (v : Word) (i j : Nat) (b : Bool) (hi : i < 64) :
    (setBit v i b).getLsbD j = if j = i then b else v.getLsbD j := by
  rw [setBit, BitVec.getLsbD_or, BitVec.getLsbD_and, BitVec.getLsbD_not, getLsbD_one_shiftLeft, getLsbD_bitAt]
  by_cases h : j = i
  · subst h; simp [hi]
  · by_cases hj : j < 64
    · simp [h, hj]
    · simp [h, BitVec.getLsbD_of_ge v j (by omega)]

/-- Writing the bit a position already holds changes nothing. -/
theorem setBit_self (v : Word) (i : Nat) (hi : i < 64) : setBit v i (v.getLsbD i) = v := by
  apply BitVec.eq_of_getLsbD_eq
  intro j _
  rw [getLsbD_setBit _ _ _ _ hi]
  split
  · next h => rw [h]
  · rfl

@[simp] theorem flipBit_flipBit (v : Word) (i : Nat) : flipBit (flipBit v i) i = v := by
  unfold flipBit
  rw [BitVec.xor_assoc, BitVec.xor_self, BitVec.xor_zero]

@[simp] theorem getLsbD_zext64 {n : Nat} (v : BitVec n) (hn : n ≤ 64) (j : Nat) :
    (zext64 v).getLsbD j = v.getLsbD j := by
  by_cases h : j < 64
  · simp [zext64, h]
  · rw [BitVec.getLsbD_of_ge _ _ (by omega), BitVec.getLsbD_of_ge _ _ (by omega)]

@[simp] theorem toNat_zext64 {n : Nat} (v : BitVec n) (hn : n ≤ 64) : (zext64 v).toNat = v.toNat := by
  have h : v.toNat < 2 ^ 64 := lt_of_lt_of_le v.isLt (Nat.pow_le_pow_right (by decide) hn)
  rw [zext64, BitVec.toNat_setWidth]
  exact Nat.mod_eq_of_lt h

end Sys2Proof.Machine
end

