-- ==== Sys2Proof/Laws/BitLayout.lean ====
section
/-! SUPPORT. Every bit of `REPOS` and `UNREPOS`. -/

namespace Sys2Proof.Machine

theorem dpos_strictMono {i j : Nat} (h : i < j) : dpos i < dpos j := by
  unfold dpos; split_ifs <;> omega

theorem dpos_injective {i j : Nat} (h : dpos i = dpos j) : i = j := by
  rcases Nat.lt_trichotomy i j with hlt | heq | hgt
  · have := dpos_strictMono hlt; omega
  · exact heq
  · have := dpos_strictMono hgt; omega

theorem dpos_lt_64 {i : Nat} (h : i < 57) : dpos i < 64 := by
  unfold dpos; split_ifs <;> omega

theorem dpos_not_parity {i : Nat} (h : i < 57) : dpos i ∉ parityPositions := by
  intro hp
  simp only [parityPositions, List.mem_cons, List.not_mem_nil, or_false] at hp
  have hd : dpos i = i + 3 ∧ i < 1 ∨ dpos i = i + 4 ∧ 1 ≤ i ∧ i < 4 ∨ dpos i = i + 5 ∧ 4 ≤ i ∧ i < 11 ∨
      dpos i = i + 6 ∧ 11 ≤ i ∧ i < 26 ∨ dpos i = i + 7 ∧ 26 ≤ i := by
    unfold dpos; split_ifs <;> omega
  omega

/-- Every position holds a payload bit or a check bit. -/
theorem position_cases {j : Nat} (h : j < 64) : j ∈ parityPositions ∨ ∃ i < 57, dpos i = j := by
  by_cases hp : j ∈ parityPositions
  · exact .inl hp
  · refine .inr ⟨if j < 4 then j - 3 else if j < 8 then j - 4 else if j < 16 then j - 5 else if j < 32 then j - 6 else j - 7, ?_, ?_⟩
    · split_ifs <;> omega
    · simp only [parityPositions, List.mem_cons, List.not_mem_nil, or_false] at hp
      unfold dpos; split_ifs <;> omega

theorem getLsbD_scatterBelow_dpos (p : Word) (n i : Nat) (hi : i < 57) :
    (scatterBelow p n).getLsbD (dpos i) = (decide (i < n) && p.getLsbD i) := by
  induction n with
  | zero => simp [scatterBelow]
  | succ n ih =>
    rw [scatterBelow, BitVec.getLsbD_or, ih, getLsbD_bitAt, decide_eq_true (dpos_lt_64 hi)]
    by_cases h : i = n
    · subst h; simp
    · have h' : dpos i ≠ dpos n := fun hd => h (dpos_injective hd)
      have h2 : (i < n + 1) ↔ (i < n) := by omega
      simp [h', h2]

theorem getLsbD_scatterBelow_parity (p : Word) (n j : Nat) (hn : n ≤ 57) (hj : j ∈ parityPositions) :
    (scatterBelow p n).getLsbD j = false := by
  induction n with
  | zero => simp [scatterBelow]
  | succ n ih =>
    have : j ≠ dpos n := fun hd => dpos_not_parity (by omega) (hd ▸ hj)
    rw [scatterBelow, BitVec.getLsbD_or, ih (by omega), getLsbD_bitAt, decide_eq_false this]
    simp

@[simp] theorem getLsbD_repos_dpos (p : Word) {i : Nat} (hi : i < 57) : (repos p).getLsbD (dpos i) = p.getLsbD i := by
  rw [repos, getLsbD_scatterBelow_dpos p 57 i hi]; simp [hi]

theorem getLsbD_repos_parity (p : Word) {j : Nat} (hj : j ∈ parityPositions) : (repos p).getLsbD j = false :=
  getLsbD_scatterBelow_parity p 57 j (le_refl _) hj

theorem getLsbD_gatherBelow (w : Word) (n i : Nat) (hn : n ≤ 64) :
    (gatherBelow w n).getLsbD i = (decide (i < n) && w.getLsbD (dpos i)) := by
  induction n with
  | zero => simp [gatherBelow]
  | succ n ih =>
    rw [gatherBelow, BitVec.getLsbD_or, ih (by omega), getLsbD_bitAt]
    by_cases h : i = n
    · subst h; simp; omega
    · have h2 : (i < n + 1) ↔ (i < n) := by omega
      simp [h, h2]

theorem getLsbD_unrepos (w : Word) (i : Nat) : (unrepos w).getLsbD i = (decide (i < 57) && w.getLsbD (dpos i)) :=
  getLsbD_gatherBelow w 57 i (by omega)

/-- Two words with the same payload positions and the same parity positions are the same word. -/
theorem eq_of_positions {v w : Word} (hd : ∀ i < 57, v.getLsbD (dpos i) = w.getLsbD (dpos i))
    (hp : ∀ j ∈ parityPositions, v.getLsbD j = w.getLsbD j) : v = w := by
  apply BitVec.eq_of_getLsbD_eq
  intro j hj
  rcases position_cases hj with h | ⟨i, hi, rfl⟩
  · exact hp j h
  · exact hd i hi

end Sys2Proof.Machine
end

