-- ==== Sys2Proof/Laws/State.lean ====
section
/-! SUPPORT. Each field of State under each update. -/

namespace Sys2Proof.Machine

@[simp] theorem State.deliver_pending (s : State) (i : Instr) (r : Response) : (s.deliver i r).pending = s.pending := rfl
@[simp] theorem State.deliver_port (s : State) (i : Instr) (r : Response) : (s.deliver i r).port = s.port := rfl
@[simp] theorem State.deliver_storage (s : State) (i : Instr) (r : Response) : (s.deliver i r).storage = s.storage := rfl
@[simp] theorem State.deliver_inPlace (s : State) (i : Instr) (r : Response) : (s.deliver i r).inPlace = s.inPlace := rfl
@[simp] theorem State.deliver_transcript (s : State) (i : Instr) (r : Response) :
    (s.deliver i r).transcript = s.transcript ++ [{ port := s.port, request := i, response := r }] := rfl

/-- Everything a write to a slot can do. -/
theorem State.writeSlot_ok {s t : State} {worker slot : Nat} {v : Word} :
    s.writeSlot worker slot v = .ok t ↔
      s.mutatedByOther worker slot = false ∧ t = { s with storage := Keyed.put s.storage slot v } := by
  unfold State.writeSlot
  cases s.mutatedByOther worker slot <;> simp [eq_comm]

/-- Everything a read of a slot can answer. -/
theorem State.readSlot_ok {s : State} {worker slot : Nat} {w : Word} :
    s.readSlot worker slot = .ok w ↔ s.mutatedByOther worker slot = false ∧ Keyed.get s.storage slot = some w := by
  unfold State.readSlot
  cases hm : s.mutatedByOther worker slot
  · cases hg : Keyed.get s.storage slot <;> simp
  · simp

/-- A received result is that of a response in the transcript. -/
theorem State.receivedResult_ok {s : State} {k : Nat} {w : Word} :
    s.receivedResult k = .ok w ↔ ∃ d, s.transcript[k]? = some d ∧ d.response.result = w := by
  unfold State.receivedResult
  cases h : s.transcript[k]? <;> simp

end Sys2Proof.Machine
end

