-- ==== Sys2Proof/Laws/HostActs.lean ====
section
/-! SUPPORT. Everything each host act can do when it goes through. -/

namespace Sys2Proof.Machine

@[simp] theorem hostOutcome_eq_next {x : Except Refusal State} {t : State} : hostOutcome x = .next t ↔ x = .ok t := by
  cases x <;> simp [hostOutcome]

/-- A write-back ends the worker's own operation in place. -/
theorem writeBack_ok {s t : State} {worker slot : Nat} :
    writeBack s worker slot = .ok t ↔ ∃ p w, Keyed.get s.inPlace slot = some p ∧ p.worker = worker ∧
      s.receivedResult p.index = .ok w ∧
      t = { s with storage := Keyed.put s.storage slot w, inPlace := Keyed.drop s.inPlace slot } := by
  unfold writeBack
  cases hp : Keyed.get s.inPlace slot with
  | none => simp
  | some p =>
    by_cases hw : p.worker = worker
    · cases hr : s.receivedResult p.index <;> simp [hw, hr, eq_comm]
    · simp [hw]

/-- A result kept is that of the response named, in the slot named. -/
theorem storeResult_ok {s t : State} {worker slot index : Nat} :
    storeResult s worker slot index = .ok t ↔
      ∃ w, s.receivedResult index = .ok w ∧ s.writeSlot worker slot w = .ok t := by
  unfold storeResult
  cases s.receivedResult index <;> simp

/-- A copy writes what it read. -/
theorem copySlot_ok {s t : State} {worker source target : Nat} :
    copySlot s worker source target = .ok t ↔
      ∃ w, s.readSlot worker source = .ok w ∧ s.writeSlot worker target w = .ok t := by
  unfold copySlot
  cases s.readSlot worker source <;> simp

/-- A flip writes what it read, the mask's bits flipped. -/
theorem flipSlot_ok {s t : State} {worker slot : Nat} {mask : Word} :
    flipSlot s worker slot mask = .ok t ↔
      ∃ w, s.readSlot worker slot = .ok w ∧ s.writeSlot worker slot (w ^^^ mask) = .ok t := by
  unfold flipSlot
  cases s.readSlot worker slot <;> simp

/-- Noise asks no worker. -/
theorem noiseSlot_ok {s t : State} {slot : Nat} {mask : Word} :
    noiseSlot s slot mask = .ok t ↔
      ∃ w, Keyed.get s.storage slot = some w ∧ t = { s with storage := Keyed.put s.storage slot (w ^^^ mask) } := by
  unfold noiseSlot
  cases Keyed.get s.storage slot <;> simp [eq_comm]

end Sys2Proof.Machine
end

