-- ==== Sys2Proof/Laws/Keyed.lean ====
section
/-! SUPPORT. Values held by key: read after write, and that every operation keeps the canonical form. -/

namespace Sys2Proof.Machine

variable {α : Type}

@[simp] theorem Keyed.get_put_same (m : Keyed α) (a : Nat) (x : α) : Keyed.get (Keyed.put m a x) a = some x := by
  induction m with
  | nil => simp [Keyed.put, Keyed.get]
  | cons e rest ih =>
    obtain ⟨b, v⟩ := e
    unfold Keyed.put
    split
    · simp [Keyed.get]
    · split
      · simp [Keyed.get]
      · next h => simpa [Keyed.get, h] using ih

theorem Keyed.get_put_other (m : Keyed α) (a c : Nat) (x : α) (h : c ≠ a) :
    Keyed.get (Keyed.put m a x) c = Keyed.get m c := by
  induction m with
  | nil => simp [Keyed.put, Keyed.get, h]
  | cons e rest ih =>
    obtain ⟨b, v⟩ := e
    unfold Keyed.put
    split
    · simp [Keyed.get, h]
    · split
      · next hb => subst hb; simp [Keyed.get, h]
      · simp only [Keyed.get]; rw [ih]

theorem Keyed.get_drop_other (m : Keyed α) (a c : Nat) (h : c ≠ a) :
    Keyed.get (Keyed.drop m a) c = Keyed.get m c := by
  induction m with
  | nil => rfl
  | cons e rest ih =>
    obtain ⟨b, v⟩ := e
    unfold Keyed.drop
    split
    · next hb => subst hb; simp [Keyed.get, h]
    · simp only [Keyed.get]; rw [ih]

theorem Keyed.above_of_le {m : Keyed α} {a b : Nat} (h : a ≤ b) (hm : Keyed.above b m = true) :
    Keyed.above a m = true := by
  induction m with
  | nil => rfl
  | cons e rest ih =>
    simp only [Keyed.above, Bool.and_eq_true, decide_eq_true_eq] at hm ⊢
    exact ⟨by omega, ih hm.2⟩

theorem Keyed.above_put {m : Keyed α} {a b : Nat} {x : α} (hb : a < b) (hm : Keyed.above a m = true) :
    Keyed.above a (Keyed.put m b x) = true := by
  induction m with
  | nil => simp [Keyed.put, Keyed.above, hb]
  | cons e rest ih =>
    obtain ⟨c, v⟩ := e
    simp only [Keyed.above, Bool.and_eq_true, decide_eq_true_eq] at hm
    unfold Keyed.put
    split
    · simp [Keyed.above, hb, hm]
    · split
      · simp [Keyed.above, hb, hm]
      · simp [Keyed.above, hm, ih hm.2]

theorem Keyed.above_drop {m : Keyed α} {a b : Nat} (hm : Keyed.above a m = true) :
    Keyed.above a (Keyed.drop m b) = true := by
  induction m with
  | nil => rfl
  | cons e rest ih =>
    obtain ⟨c, v⟩ := e
    simp only [Keyed.above, Bool.and_eq_true, decide_eq_true_eq] at hm
    unfold Keyed.drop
    split
    · exact hm.2
    · simp [Keyed.above, hm, ih hm.2]

theorem Keyed.wf_put {m : Keyed α} (a : Nat) (x : α) (hm : Keyed.wf m = true) : Keyed.wf (Keyed.put m a x) = true := by
  induction m with
  | nil => rfl
  | cons e rest ih =>
    obtain ⟨b, v⟩ := e
    simp only [Keyed.wf, Bool.and_eq_true] at hm
    unfold Keyed.put
    split
    · next h => simp [Keyed.wf, Keyed.above, h, hm, Keyed.above_of_le (le_of_lt h) hm.1]
    · split
      · next h => subst h; simp [Keyed.wf, hm]
      · next h1 h2 => simp [Keyed.wf, ih hm.2, Keyed.above_put (by omega : b < a) hm.1]

theorem Keyed.wf_drop {m : Keyed α} (a : Nat) (hm : Keyed.wf m = true) : Keyed.wf (Keyed.drop m a) = true := by
  induction m with
  | nil => rfl
  | cons e rest ih =>
    obtain ⟨b, v⟩ := e
    simp only [Keyed.wf, Bool.and_eq_true] at hm
    unfold Keyed.drop
    split
    · exact hm.2
    · simp [Keyed.wf, ih hm.2, Keyed.above_drop hm.1]

/-- A key below every key of the map is not in it. -/
theorem Keyed.get_of_above {m : Keyed α} {a : Nat} (hm : Keyed.above a m = true) : Keyed.get m a = none := by
  induction m with
  | nil => rfl
  | cons e rest ih =>
    obtain ⟨b, v⟩ := e
    simp only [Keyed.above, Bool.and_eq_true, decide_eq_true_eq] at hm
    simp only [Keyed.get]
    rw [if_neg (by omega), ih hm.2]

theorem Keyed.get_drop_same {m : Keyed α} (a : Nat) (hm : Keyed.wf m = true) :
    Keyed.get (Keyed.drop m a) a = none := by
  induction m with
  | nil => rfl
  | cons e rest ih =>
    obtain ⟨b, v⟩ := e
    simp only [Keyed.wf, Bool.and_eq_true] at hm
    unfold Keyed.drop
    split
    · next h => subst h; exact Keyed.get_of_above hm.1
    · next h => simpa [Keyed.get, h] using ih hm.2

/-- Equal reads, equal maps: the form is canonical. -/
theorem Keyed.eq_of_get_eq {m n : Keyed α} (hm : Keyed.wf m = true) (hn : Keyed.wf n = true)
    (h : ∀ a, Keyed.get m a = Keyed.get n a) : m = n := by
  induction m generalizing n with
  | nil =>
    cases n with
    | nil => rfl
    | cons e rest => have := h e.1; simp [Keyed.get] at this
  | cons e rest ih =>
    obtain ⟨b, v⟩ := e
    cases n with
    | nil => have := h b; simp [Keyed.get] at this
    | cons f rest' =>
      obtain ⟨c, u⟩ := f
      simp only [Keyed.wf, Bool.and_eq_true] at hm hn
      have hbc : b = c := by
        rcases Nat.lt_trichotomy b c with hlt | heq | hgt
        · have hb := h b
          rw [Keyed.get_of_above (m := (c, u) :: rest') (by
            simp [Keyed.above, hlt, Keyed.above_of_le (le_of_lt hlt) hn.1])] at hb
          simp [Keyed.get] at hb
        · exact heq
        · have hc := h c
          rw [Keyed.get_of_above (m := (b, v) :: rest) (by
            simp [Keyed.above, hgt, Keyed.above_of_le (le_of_lt hgt) hm.1])] at hc
          simp [Keyed.get] at hc
      subst hbc
      have hv : v = u := by simpa [Keyed.get] using h b
      subst hv
      congr 1
      refine ih hm.2 hn.2 fun a => ?_
      by_cases ha : a = b
      · subst ha; rw [Keyed.get_of_above hm.1, Keyed.get_of_above hn.1]
      · simpa [Keyed.get, ha] using h a

end Sys2Proof.Machine
end

