-- ==== Sys2Proof/Laws/ParityEncoder.lean ====
section
/-! SUPPORT. Every bit of `GP` and `SETPAR`, and the precondition of `setParity` by bits. -/

namespace Sys2Proof.Machine

@[simp] theorem getLsbD_gp (w : Word) (k : Fin 6) : (gp w).getLsbD k.val = groupParity w k := by
  fin_cases k <;> simp only [gp, BitVec.getLsbD_append] <;> simp

/-- Two 6-bit values with the same group bits are equal. -/
theorem eq_of_groups {a b : BitVec 6} (h : ∀ k : Fin 6, a.getLsbD k.val = b.getLsbD k.val) : a = b :=
  BitVec.eq_of_getLsbD_eq fun k hk => h ⟨k, hk⟩

theorem getLsbD_writePositional (g : BitVec 6) (t : Word) (n j : Nat) (hn : n ≤ 6) :
    (writePositional g t n).getLsbD j =
      if _ : ∃ k < n, j = 2 ^ k then g.getLsbD (Nat.log2 j) else t.getLsbD j := by
  induction n with
  | zero => simp [writePositional]
  | succ n ih =>
    have h64 : 2 ^ n < 64 := by
      have : 2 ^ n ≤ 2 ^ 5 := Nat.pow_le_pow_right (by decide) (by omega)
      omega
    rw [writePositional, getLsbD_setBit _ _ _ _ h64, ih (by omega)]
    by_cases h : j = 2 ^ n
    · subst h
      rw [if_pos rfl, dif_pos ⟨n, by omega, rfl⟩, Nat.log2_two_pow]
    · rw [if_neg h]
      have : (∃ k < n + 1, j = 2 ^ k) ↔ ∃ k < n, j = 2 ^ k := by
        constructor
        · rintro ⟨k, hk, rfl⟩
          refine ⟨k, ?_, rfl⟩
          rcases Nat.lt_or_eq_of_le (Nat.lt_succ_iff.mp hk) with hlt | rfl
          · exact hlt
          · exact absurd rfl h
        · rintro ⟨k, hk, rfl⟩; exact ⟨k, by omega, rfl⟩
      simp only [this]

/-- A positional parity bit of `SETPAR(w)` is the parity of its group in `w`. -/
theorem getLsbD_setpar_positional (w : Word) (k : Fin 6) : (setpar w).getLsbD (2 ^ k.val) = groupParity w k := by
  rw [setpar, getLsbD_setBit _ _ _ _ (by decide), if_neg (by positivity),
    getLsbD_writePositional _ _ _ _ (le_refl _), dif_pos ⟨k.val, k.isLt, rfl⟩, Nat.log2_two_pow, getLsbD_gp]

/-- The extended parity bit of `SETPAR(w)` is the parity of the word after the positional writes. -/
theorem getLsbD_setpar_extended (w : Word) : (setpar w).getLsbD 0 = parity (writePositional (gp w) w 6) := by
  rw [setpar, getLsbD_setBit _ _ _ _ (by decide), if_pos rfl]

/-- `SETPAR` leaves every payload position alone. -/
theorem getLsbD_setpar_payload (w : Word) {j : Nat} (hj : j ∉ parityPositions) :
    (setpar w).getLsbD j = w.getLsbD j := by
  have h0 : j ≠ 0 := fun h => hj (h ▸ by decide)
  have hk : ¬ ∃ k < 6, j = 2 ^ k := by
    rintro ⟨k, hk, rfl⟩
    have : 2 ^ k ∈ parityPositions := by revert k; decide
    exact hj this
  rw [setpar, getLsbD_setBit _ _ _ _ (by decide), if_neg h0,
    getLsbD_writePositional _ _ _ _ (le_refl _), dif_neg hk]

theorem getLsbD_parityMask (j : Nat) : parityMask.getLsbD j = decide (j ∈ parityPositions) := by
  by_cases h : j < 64
  · revert j; decide
  · rw [BitVec.getLsbD_of_ge _ _ (by omega)]
    simp only [parityPositions, List.mem_cons, List.not_mem_nil, or_false]
    symm; rw [decide_eq_false_iff_not]; omega

/-- The precondition of `setParity`, by bits (R145). -/
theorem and_parityMask_eq_zero_iff (w : Word) :
    w &&& parityMask = 0#64 ↔ ∀ j ∈ parityPositions, w.getLsbD j = false := by
  constructor
  · intro h j hj
    have := congrArg (fun v : Word => v.getLsbD j) h
    simpa [getLsbD_parityMask, hj] using this
  · intro h
    apply BitVec.eq_of_getLsbD_eq
    intro j _
    by_cases hj : j ∈ parityPositions
    · simp [h j hj]
    · simp [getLsbD_parityMask, hj]

theorem parityPositionsZero_iff (w : Word) : parityPositionsZero w = true ↔ w &&& parityMask = 0#64 := by
  simp [parityPositionsZero]

/-- Everything `setParity` can answer. -/
theorem responseSetParity_eq (w : Word) :
    (w &&& parityMask = 0#64 ∧ responseSetParity w = some (succeed (setpar w))) ∨
    (w &&& parityMask ≠ 0#64 ∧ responseSetParity w = none) := by
  unfold responseSetParity
  by_cases h : parityPositionsZero w = true
  · exact .inl ⟨(parityPositionsZero_iff w).mp h, by simp [h]⟩
  · exact .inr ⟨fun h' => h ((parityPositionsZero_iff w).mpr h'), by simp [h]⟩

end Sys2Proof.Machine
end

