-- ==== Sys2Proof/Laws/PerInstr.lean ====
section
/-! SUPPORT. Statements made of every instruction as syntax, one lemma a constructor: where the fields of its request stand (R65). -/

/-- Bits 66:64 of the encoded request are the op code (R65, R67). -/
def Sys2Proof.Laws.OpField.Statement (i : Sys2Proof.Instr) : Prop :=
  Sys2Proof.opField (Sys2Proof.encodeRequest i) = Sys2Proof.opCode i

/-- Bits 63:0 of the encoded request are the operand (R65, R68). -/
def Sys2Proof.Laws.OperandField.Statement (i : Sys2Proof.Instr) : Prop :=
  Sys2Proof.operandField (Sys2Proof.encodeRequest i) = i.operand

namespace Sys2Proof.Laws

/-- The field of a request above its operand. -/
theorem opField_append (op : BitVec 3) (x : Word) : opField (op ++ x) = op := by
  apply BitVec.eq_of_getLsbD_eq
  intro j hj
  have h64 : ¬ 64 + j < 64 := by omega
  have hsub : 64 + j - 64 = j := by omega
  rw [opField, BitVec.getLsbD_extractLsb', decide_eq_true hj, Bool.true_and, BitVec.getLsbD_append, if_neg h64, hsub]

/-- The operand of a request. -/
theorem operandField_append (op : BitVec 3) (x : Word) : operandField (op ++ x) = x := by
  apply BitVec.eq_of_getLsbD_eq
  intro j hj
  rw [operandField, BitVec.getLsbD_extractLsb', decide_eq_true hj, Bool.true_and, Nat.zero_add, BitVec.getLsbD_append,
    if_pos hj]

/-- Decoding a request made of its two fields. -/
theorem decodeRequest_append (op : BitVec 3) (x : Word) : decodeRequest (op ++ x) = decodeFields op x := by
  rw [decodeRequest, opField_append, operandField_append]

/-- A request is its two fields. -/
theorem fields_append (q : BitVec 67) : opField q ++ operandField q = q := by
  apply BitVec.eq_of_getLsbD_eq
  intro j hj
  rw [BitVec.getLsbD_append]
  by_cases h : j < 64
  · simp [operandField, h]
  · have h3 : j - 64 < 3 := by omega
    have h4 : 64 + (j - 64) = j := by omega
    simp [opField, h, h3, h4]

end Sys2Proof.Laws

theorem Sys2Proof.Laws.OpField.popcount (operand : Sys2Proof.Word) : Sys2Proof.Laws.OpField.Statement (.popcount operand) := Sys2Proof.Laws.opField_append _ _
theorem Sys2Proof.Laws.OpField.reposition (operand : Sys2Proof.Word) : Sys2Proof.Laws.OpField.Statement (.reposition operand) := Sys2Proof.Laws.opField_append _ _
theorem Sys2Proof.Laws.OpField.unreposition (operand : Sys2Proof.Word) : Sys2Proof.Laws.OpField.Statement (.unreposition operand) := Sys2Proof.Laws.opField_append _ _
theorem Sys2Proof.Laws.OpField.setParity (operand : Sys2Proof.Word) : Sys2Proof.Laws.OpField.Statement (.setParity operand) := Sys2Proof.Laws.opField_append _ _
theorem Sys2Proof.Laws.OpField.encode (operand : Sys2Proof.Word) : Sys2Proof.Laws.OpField.Statement (.encode operand) := Sys2Proof.Laws.opField_append _ _
theorem Sys2Proof.Laws.OpField.findErrorPosition (operand : Sys2Proof.Word) : Sys2Proof.Laws.OpField.Statement (.findErrorPosition operand) := Sys2Proof.Laws.opField_append _ _
theorem Sys2Proof.Laws.OpField.correctBlock (operand : Sys2Proof.Word) : Sys2Proof.Laws.OpField.Statement (.correctBlock operand) := Sys2Proof.Laws.opField_append _ _
theorem Sys2Proof.Laws.OpField.decode (operand : Sys2Proof.Word) : Sys2Proof.Laws.OpField.Statement (.decode operand) := Sys2Proof.Laws.opField_append _ _

theorem Sys2Proof.Laws.OperandField.popcount (operand : Sys2Proof.Word) : Sys2Proof.Laws.OperandField.Statement (.popcount operand) := Sys2Proof.Laws.operandField_append _ _
theorem Sys2Proof.Laws.OperandField.reposition (operand : Sys2Proof.Word) : Sys2Proof.Laws.OperandField.Statement (.reposition operand) := Sys2Proof.Laws.operandField_append _ _
theorem Sys2Proof.Laws.OperandField.unreposition (operand : Sys2Proof.Word) : Sys2Proof.Laws.OperandField.Statement (.unreposition operand) := Sys2Proof.Laws.operandField_append _ _
theorem Sys2Proof.Laws.OperandField.setParity (operand : Sys2Proof.Word) : Sys2Proof.Laws.OperandField.Statement (.setParity operand) := Sys2Proof.Laws.operandField_append _ _
theorem Sys2Proof.Laws.OperandField.encode (operand : Sys2Proof.Word) : Sys2Proof.Laws.OperandField.Statement (.encode operand) := Sys2Proof.Laws.operandField_append _ _
theorem Sys2Proof.Laws.OperandField.findErrorPosition (operand : Sys2Proof.Word) : Sys2Proof.Laws.OperandField.Statement (.findErrorPosition operand) := Sys2Proof.Laws.operandField_append _ _
theorem Sys2Proof.Laws.OperandField.correctBlock (operand : Sys2Proof.Word) : Sys2Proof.Laws.OperandField.Statement (.correctBlock operand) := Sys2Proof.Laws.operandField_append _ _
theorem Sys2Proof.Laws.OperandField.decode (operand : Sys2Proof.Word) : Sys2Proof.Laws.OperandField.Statement (.decode operand) := Sys2Proof.Laws.operandField_append _ _
end

