-- ==== Sys2Proof/Laws/Popcount.lean ====
section
/-! SUPPORT. popcount: its range and its 7-bit port. -/

namespace Sys2Proof.Machine

theorem countBelow_le (x : Word) (n : Nat) : countBelow x n ≤ n := by
  induction n with
  | zero => simp [countBelow]
  | succ n ih => have := Bool.toNat_le (x.getLsbD n); simp only [countBelow]; omega

/-- The count depends on the bits alone. -/
theorem countBelow_congr {x y : Word} {n : Nat} (h : ∀ i < n, x.getLsbD i = y.getLsbD i) :
    countBelow x n = countBelow y n := by
  induction n with
  | zero => rfl
  | succ n ih => simp only [countBelow]; rw [ih fun i hi => h i (by omega), h n (by omega)]

theorem popcount_le_64 (x : Word) : popcount x ≤ 64 := countBelow_le x 64

@[simp] theorem toNat_popcount64 (x : Word) : (popcount64 x).toNat = popcount x := by
  have := popcount_le_64 x
  simp only [popcount64, BitVec.toNat_ofNat]
  omega

theorem parity_eq_true_iff (x : Word) : parity x = true ↔ popcount x % 2 = 1 := by simp [parity]

theorem parity_eq_false_iff (x : Word) : parity x = false ↔ popcount x % 2 = 0 := by
  simp [parity]

theorem toNat_parity (x : Word) : (parity x).toNat = popcount x % 2 := by
  rcases Nat.mod_two_eq_zero_or_one (popcount x) with h | h <;> simp [parity, h]

end Sys2Proof.Machine
end

