-- ==== Sys2Proof/Laws/Step.lean ====
section
/-! SUPPORT. Everything a step can do. -/

namespace Sys2Proof.Machine

/-- `exec` is the answer to the request, received; or setParity's refusal. -/
theorem exec_eq_answer (i : Instr) (s : State) :
    exec i s = match answer i with
      | some r => .next (s.deliver i r)
      | none => .refused .setParity_parity_positions_nonzero := by
  cases i <;> rfl

/-- The next state of an operation is the state with its response received. -/
theorem exec_next {i : Instr} {s t : State} (h : exec i s = .next t) : ∃ r, answer i = some r ∧ t = s.deliver i r := by
  rw [exec_eq_answer] at h
  cases ha : answer i with
  | none => rw [ha] at h; cases h
  | some r => rw [ha] at h; cases h; exact ⟨r, rfl, rfl⟩

/-- What an act does to the state when it goes through: a response received, in place or not; a slot written; a result
written back. -/
theorem perform_next {a : HostAct} {s t : State} (h : perform a s = .next t) :
    (∃ n i r, answer i = some r ∧ t = ({ s with port := n } : State).deliver i r) ∨
    (∃ worker slot n i r, answer i = some r ∧
      t = ({ s with inPlace := Keyed.put s.inPlace slot { worker := worker, index := s.transcript.length }, port := n } : State).deliver i r) ∨
    (∃ slot v, t = { s with storage := Keyed.put s.storage slot v }) ∨
    (∃ slot v, t = { s with storage := Keyed.put s.storage slot v, inPlace := Keyed.drop s.inPlace slot }) := by
  cases a with
  | request n q =>
    obtain ⟨r, ha, ht⟩ := exec_next h
    exact .inl ⟨n, _, r, ha, ht⟩
  | requestStored worker n op slot =>
    simp only [perform, presentStored] at h
    split at h
    · cases h
    · obtain ⟨r, ha, ht⟩ := exec_next h
      exact .inl ⟨n, _, r, ha, ht⟩
  | requestInPlace worker n op slot =>
    simp only [perform, presentInPlace] at h
    split at h
    · cases h
    · obtain ⟨r, ha, ht⟩ := exec_next h
      exact .inr (.inl ⟨worker, slot, n, _, r, ha, ht⟩)
  | writeBack worker slot =>
    obtain ⟨p, w, -, -, -, ht⟩ := writeBack_ok.mp (hostOutcome_eq_next.mp h)
    exact .inr (.inr (.inr ⟨slot, w, ht⟩))
  | store worker slot v =>
    exact .inr (.inr (.inl ⟨slot, v, (State.writeSlot_ok.mp (hostOutcome_eq_next.mp h)).2⟩))
  | storeResult worker slot k =>
    obtain ⟨w, -, hw⟩ := storeResult_ok.mp (hostOutcome_eq_next.mp h)
    exact .inr (.inr (.inl ⟨slot, w, (State.writeSlot_ok.mp hw).2⟩))
  | copy worker source target =>
    obtain ⟨w, -, hw⟩ := copySlot_ok.mp (hostOutcome_eq_next.mp h)
    exact .inr (.inr (.inl ⟨target, w, (State.writeSlot_ok.mp hw).2⟩))
  | flip worker slot m =>
    obtain ⟨w, -, hw⟩ := flipSlot_ok.mp (hostOutcome_eq_next.mp h)
    exact .inr (.inr (.inl ⟨slot, w ^^^ m, (State.writeSlot_ok.mp hw).2⟩))
  | noise slot m =>
    obtain ⟨w, -, ht⟩ := noiseSlot_ok.mp (hostOutcome_eq_next.mp h)
    exact .inr (.inr (.inl ⟨slot, w ^^^ m, ht⟩))

/-- A step performs the first pending act. -/
theorem step_next {s t : State} (h : step s = .next t) :
    ∃ a rest, s.pending = a :: rest ∧ perform a { s with pending := rest } = .next t := by
  unfold step at h
  split at h
  · cases h
  · next a rest hp => exact ⟨a, rest, hp, h⟩

end Sys2Proof.Machine
end

