-- ==== Sys2Proof/Laws/SyndromeDecoder.lean ====
section
/-! SUPPORT. Everything `CORR` and `DEC` can answer (R174, R176). -/

namespace Sys2Proof.Machine

/-- The three rows of the decision table. -/
theorem corr_cases (w : Word) :
    (parity w = true ∧ corr w = { word := flipBit w (syndrome w).toNat, ok := true }) ∨
    (parity w = false ∧ syndrome w = 0#6 ∧ corr w = { word := w, ok := true }) ∨
    (parity w = false ∧ syndrome w ≠ 0#6 ∧ corr w = { word := w, ok := false }) := by
  unfold corr
  cases hp : parity w
  · by_cases hs : syndrome w = 0#6
    · exact .inr (.inl ⟨rfl, hs, by simp [hs]⟩)
    · exact .inr (.inr ⟨rfl, hs, by simp [hs]⟩)
  · exact .inl ⟨rfl, by simp⟩

theorem dec_of_ok {w : Word} (h : (corr w).ok = true) : dec w = { word := unrepos (corr w).word, ok := true } := by
  simp [dec, h]

theorem dec_of_not_ok {w : Word} (h : (corr w).ok = false) : dec w = { word := w, ok := false } := by
  simp [dec, h]

@[simp] theorem dec_ok (w : Word) : (dec w).ok = (corr w).ok := by
  cases h : (corr w).ok
  · rw [dec_of_not_ok h]
  · rw [dec_of_ok h]

end Sys2Proof.Machine
end

