-- ==== Sys2Proof/Tests/Slice0.lean ====
section
/-! SUPPORT. The model's own tests. Expected values are those of the spec's corner cases, examples and vectors
(95_test_vectors.md) or written out bit by bit from the request format (R65). Witnesses for the hypotheses of the obligations
follow. -/

namespace Sys2Proof.Tests

open Sys2Proof Sys2Proof.Machine

/-- The last response of a next state. -/
def lastResponse : Host.Outcome State Fault Refusal → Option Response
  | .next s => s.transcript.getLast?.map Delivery.response
  | .fault _ => none
  | .refused _ => none

/-- The refusal of an outcome. -/
def refusal : Host.Outcome State Fault Refusal → Option Refusal
  | .next _ => none
  | .fault _ => none
  | .refused r => some r

/-- The word in a slot of a next state. -/
def slotAfter (slot : Nat) : Host.Outcome State Fault Refusal → Option Word
  | .next s => Keyed.get s.storage slot
  | .fault _ => none
  | .refused _ => none

/-- One step on a packed request. -/
def stepOn (w : Nat) : Host.Outcome State Fault Refusal := step (State.reset.withFetchWord 72 w)

/-! ## WellFormed refuses -/

theorem test_packed_of_68_bits_is_ill_formed : packedWellFormed 0x80000000000000000 = false := by decide
theorem test_setParity_with_bit_0_is_ill_formed : Instr.wellFormed (.setParity 0x1#64) = false := by decide
theorem test_setParity_with_bit_32_is_ill_formed : Instr.wellFormed (.setParity 0x0000000100000000#64) = false := by decide
theorem test_largest_packed_is_well_formed : packedWellFormed 0x7FFFFFFFFFFFFFFFF = true := by decide

/-! ## Decoding: op in bits 66:64, operand in bits 63:0 (R65, R67) -/

theorem test_decode_popcount : decodeRequest (0b000#3 ++ 0xAAAAAAAAAAAAAAAA#64) = .popcount 0xAAAAAAAAAAAAAAAA#64 := by decide
theorem test_decode_reposition : decodeTableWord 72 0x10000000000000010 = some (.reposition 0x10#64) := by decide
theorem test_decode_unreposition : decodeTableWord 72 0x20000000100000000 = some (.unreposition 0x100000000#64) := by decide
theorem test_decode_setParity : decodeTableWord 72 0x38000000000000000 = some (.setParity 0x8000000000000000#64) := by decide
theorem test_decode_encode : decodeTableWord 72 0x40000000000000001 = some (.encode 0x1#64) := by decide
theorem test_decode_findErrorPosition : decodeTableWord 72 0x591A2B3E46AF3BDF9 = some (.findErrorPosition 0x91A2B3E46AF3BDF9#64) := by decide
theorem test_decode_correctBlock : decodeTableWord 72 0x60000000000000003 = some (.correctBlock 0x3#64) := by decide
theorem test_decode_decode : decodeTableWord 72 0x7FFFFFFFFFFFFFFFF = some (.decode 0xFFFFFFFFFFFFFFFF#64) := by decide
theorem test_decode_refuses_bit_67 : decodePacked 0x80000000000000000 = .error .bitAbove66 := by rfl

/-! ## One step an operation (95_test_vectors.md sections 2.1 to 2.5) -/

theorem test_popcount_mixed : lastResponse (stepOn 0x00123456789ABCDEF) = some { result := 0x20#64, ok := true } := by decide +kernel
theorem test_popcount_all_ones : lastResponse (stepOn 0x0FFFFFFFFFFFFFFFF) = some { result := 0x40#64, ok := true } := by decide +kernel
theorem test_reposition_mixed : lastResponse (stepOn 0x10123456789ABCDEF) = some { result := 0x91A2B3C46AF2BCE8#64, ok := true } := by decide +kernel
theorem test_reposition_drops_bit_57 : lastResponse (stepOn 0x10200000000000000) = some { result := 0x0#64, ok := true } := by decide +kernel
theorem test_unreposition_any_word : lastResponse (stepOn 0x20123456789ABCDEF) = some { result := 0x0002468ACE26AE6F#64, ok := true } := by decide +kernel
theorem test_unreposition_parity_ignored : lastResponse (stepOn 0x20000000100010117) = some { result := 0x0#64, ok := true } := by decide +kernel
theorem test_setParity_two_bits : lastResponse (stepOn 0x30000000000000028) = some { result := 0x3C#64, ok := true } := by decide +kernel
theorem test_setParity_refused : refusal (stepOn 0x30000000000000009) = some .setParity_parity_positions_nonzero := by decide +kernel
theorem test_encode_mixed : lastResponse (stepOn 0x40123456789ABCDEF) = some { result := 0x91A2B3C46AF3BDF9#64, ok := true } := by decide +kernel
theorem test_encode_out_of_range : lastResponse (stepOn 0x48000000000000005) = some { result := 0x5A#64, ok := true } := by decide +kernel
theorem test_findErrorPosition_37 : lastResponse (stepOn 0x591A2B3E46AF3BDF9) = some { result := 0x25#64, ok := true } := by decide +kernel
theorem test_findErrorPosition_two_errors : lastResponse (stepOn 0x591A2B3C46AF3BDFA) = some { result := 0x1#64, ok := true } := by decide +kernel
theorem test_correctBlock_three_errors : lastResponse (stepOn 0x691A2B2C46AF3BFD9) = some { result := 0x91A2B2D46AF3BFD9#64, ok := true } := by decide +kernel
theorem test_correctBlock_two_errors : lastResponse (stepOn 0x691A6B3C46AF3ADF9) = some { result := 0x91A6B3C46AF3ADF9#64, ok := false } := by decide +kernel
theorem test_decode_single_error : lastResponse (stepOn 0x791A2B3E46AF3BDF9) = some { result := 0x0123456789ABCDEF#64, ok := true } := by decide +kernel
theorem test_decode_four_errors_clean : lastResponse (stepOn 0x791A2B3C46AF3BDF6) = some { result := 0x0123456789ABCDEE#64, ok := true } := by decide +kernel

/-! ## Ports, parameters, written forms -/

theorem test_gp_of_reposition_7F : paritySyndromeCalculator 0xEE8#64 = 0b001111#6 := by decide
theorem test_unified_interface_encode_1 : unifiedInterface 0x40000000000000001#67 = some 0x1000000000000000F#65 := by decide +kernel
theorem test_parameters : payloadPositions.length = Config.payloadWidth ∧ parityPositions.length = Config.checkBits ∧
    Config.codewordWidth = Config.payloadWidth + Config.checkBits ∧ groupMasks.size = Config.positionalParityBits := by decide
theorem test_stored_bytes_under_an_order : storedBytes id 0x0123456789ABCDEF#64 =
    [0xEF#8, 0xCD#8, 0xAB#8, 0x89#8, 0x67#8, 0x45#8, 0x23#8, 0x01#8] := by decide
theorem test_write_request : writeRequest (.encode 0x1#64) = "encode 0x0000000000000001" := by decide
theorem test_write_packed : writePacked (.encode 0x1#64) = "0x40000000000000001" := by decide
theorem test_write_response : writeResponse { result := 0xF#64, ok := true } = "-> result=0x000000000000000F ok=1" := by decide
theorem test_read_short_decimal : readRequest "popcount 64" = some (.popcount 0x40#64) := by decide
theorem test_read_hex_in_either_case : readRequest "encode 0xaB" = some (.encode 0xAB#64) := by decide
theorem test_read_is_case_sensitive : readRequest "Popcount 64" = none := by decide

/-! ## Host acts -/

/-- Slot 3 holds the codeword of 0xDEADBEEF with bits 0 and 1 flipped, slot 5 a codeword; worker 1 is mutating slot 5. -/
def stored : State :=
  { pending := [], port := 0, storage := [(3, 0x0000006FAB6EDCEC#64), (5, 0xF#64)],
    inPlace := [(5, { worker := 1, index := 0 })], transcript := [{ port := 0, request := .encode 0x1#64, response := { result := 0xF#64, ok := true } }] }

theorem test_reading_an_empty_slot_is_refused :
    refusal (step { stored with pending := [.copy 1 9 3] }) = some .emptySlot := by decide
theorem test_no_such_response_is_refused :
    refusal (step { stored with pending := [.storeResult 1 3 1] }) = some .noSuchResponse := by decide
theorem test_write_back_needs_an_operation_in_place :
    refusal (step { stored with pending := [.writeBack 1 3] }) = some .noInPlaceOperation := by decide
theorem test_nothing_pending_is_refused : refusal (step State.reset) = some .noRequest := by decide
theorem test_noise_beside_a_mutation : slotAfter 5 (step { stored with pending := [.noise 5 0x1#64] }) = some 0xE#64 := by decide
theorem test_first_store_to_an_empty_slot : slotAfter 9 (step { State.reset with pending := [.store 1 9 0x5#64] }) = some 0x5#64 := by decide
theorem test_store_result : slotAfter 9 (step { stored with pending := [.storeResult 2 9 0] }) = some 0xF#64 := by decide
theorem test_copy : slotAfter 4 (step { stored with pending := [.copy 2 3 4] }) = some 0x0000006FAB6EDCEC#64 := by decide

/-! ## Witnesses: concrete states and operands that meet the hypotheses of the obligations -/

theorem witness_ResponseFormat :
    answer (.popcount 0x0#64) ≠ none ∧ Instr.canFail (.popcount 0x0#64) = false ∧
    (decodeRequest 0x30000000000000001#67).wellFormed = false ∧ (decodeRequest 0x30000000000000000#67).wellFormed = true := by
  decide +kernel

theorem witness_EveryOperationAnswers : parityPositionsZero 0xFFFFFFFEFFFEFEE8#64 = true ∧ parityPositionsZero 0x0#64 = true := by decide

theorem witness_OperationsLeaveTheHostsStateAlone : ∃ t, exec (.decode 0x3#64) stored = .next t := ⟨_, rfl⟩

theorem witness_OnlyOkReportsFailure :
    refusal (exec (.setParity 0x1#64) stored) = some .setParity_parity_positions_nonzero ∧
    answer (.correctBlock 0x3#64) = some { result := 0x3#64, ok := false } ∧
    answer (.decode 0x3#64) = some { result := 0x3#64, ok := false } := by decide +kernel

theorem witness_PayloadFormat :
    (0xFE00000000000001#64 : Word).extractLsb' 0 57 = (0x1#64 : Word).extractLsb' 0 57 ∧
    answer (.decode 0x0#64) = some { result := 0x0#64, ok := true } := by decide +kernel

theorem witness_Positions : payloadPositions[0]? = some 3 ∧ payloadPositions[56]? = some 63 ∧ 32 ∈ parityPositions ∧
    0 ∈ parityPositions ∧ 63 ∉ parityPositions := by decide

theorem witness_validPayload : validPayload 0x0#64 ∧ validPayload 0x01FFFFFFFFFFFFFF#64 ∧ ¬ validPayload 0x0200000000000000#64 := by
  unfold validPayload; decide

theorem witness_SetParity : (0xFFFFFFFEFFFEFEE8#64 : Word) &&& 0x0000000100010117#64 = 0#64 ∧
    (0x0000000100000000#64 : Word) &&& 0x0000000100010117#64 ≠ 0#64 := by decide

theorem witness_validCodeword : validCodeword 0x0#64 ∧ validCodeword 0xFFFFFFFFFFFFFFFF#64 ∧ validCodeword 0xF#64 ∧
    (0x0#64 : Word) ≠ 0xF#64 ∧ ¬ validCodeword 0x17#64 := by
  unfold validCodeword; decide +kernel

theorem witness_decisionTable :
    (parity 0x1#64 = true ∧ syndrome 0x1#64 = 0#6) ∧ (parity 0x0#64 = false ∧ syndrome 0x0#64 = 0#6) ∧
    (parity 0x3#64 = false ∧ syndrome 0x3#64 ≠ 0#6) := by decide +kernel

theorem witness_correction : (corr 0x8000000000000000#64).ok = true ∧ (corr 0x3#64).ok = false ∧
    (responseDecode 0x3#64).ok = false ∧ (responseDecode 0x1#64).payload = some 0x0#64 := by decide +kernel

theorem witness_classes : classify 0x0#64 = .clean ∧ classify 0x1#64 = .singleCorrectable ∧
    classify 0x3#64 = .doubleUncorrectable := by decide +kernel

theorem witness_dutyErrors :
    (dutyErrors (enc 0x1#64) 0xF#64 = true ∧ (dec 0xF#64).ok = true) ∧
    (dutyErrors (enc 0x1#64) 0xE#64 = true ∧ (dec 0xE#64).ok = true) ∧
    (dutyErrors (enc 0x1#64) 0xC#64 = true ∧ (dec 0xC#64).ok = false) := by decide +kernel

theorem witness_ThreeAndFourErrors : popcount 0x7#64 = 3 ∧ (popcount 0xF#64 = 4 ∧ validCodeword 0xF#64) ∧
    (popcount 0x17#64 = 4 ∧ ¬ validCodeword 0x17#64) := by unfold validCodeword; decide +kernel

theorem witness_StepRunsTheDecodedRequest :
    decodeTableWord 72 0x7FFFFFFFFFFFFFFFF = some (.decode 0xFFFFFFFFFFFFFFFF#64) ∧
    decodeTableWord 72 0x0 = some (.popcount 0x0#64) ∧
    { stored with pending := [.request 7 0x0#67] }.pending = .request 7 0x0#67 :: [] := by decide

/-- The hypotheses of StoredOperandIsTheStoredWord and InPlaceOperationWritesTheResultBack, at worker 2 and slot 3 while worker 1
mutates slot 5, and at worker 1 on its own slot 5. -/
theorem witness_StoredOperand :
    stored.mutatedByOther 2 3 = false ∧ Keyed.get stored.storage 3 = some 0x0000006FAB6EDCEC#64 ∧
    answer (decodeFields 0b111#3 0x0000006FAB6EDCEC#64) = some { result := 0x0000006FAB6EDCEC#64, ok := false } ∧
    Keyed.wf stored.inPlace = true ∧ Keyed.get stored.inPlace 5 ≠ none ∧
    stored.mutatedByOther 1 5 = false ∧ Keyed.get stored.storage 5 = some 0xF#64 := by
  decide +kernel

/-- The hypotheses of ReadBesideMutationIsRefused: worker 2 beside worker 1, who is mutating slot 5; a response 0; another slot to copy from. -/
theorem witness_Race :
    Keyed.get stored.inPlace 5 = some { worker := 1, index := 0 } ∧ (1 : Nat) ≠ 2 ∧ 0 < stored.transcript.length ∧
    stored.mutatedByOther 2 3 = false ∧ Keyed.get stored.storage 3 = some 0x0000006FAB6EDCEC#64 := by decide

/-- Each act of ReadBesideMutationIsRefused, at worker 2. -/
theorem witness_Race_acts :
    [HostAct.requestStored 2 0 0b111#3 5, .requestInPlace 2 0 0b111#3 5, .writeBack 2 5, .store 2 5 0x0#64, .flip 2 5 0x1#64,
      .storeResult 2 5 0, .copy 2 5 3, .copy 2 3 5].map (fun a => refusal (step { stored with pending := [a] })) =
    List.replicate 8 (some .storageRace) := by decide

/-- The hypotheses of HostChangesOnlyTheNamedWord, for each act: on a slot that holds a word, on the empty slot 0 and, for noise,
on slot 5, which worker 1 is mutating. -/
theorem witness_HostChanges :
    Keyed.get stored.storage 3 = some 0x0000006FAB6EDCEC#64 ∧ stored.mutatedByOther 2 3 = false ∧
    Keyed.get stored.storage 0 = none ∧ stored.mutatedByOther 2 0 = false ∧
    Keyed.get stored.storage 5 = some 0xF#64 ∧ stored.mutatedByOther 2 5 = true ∧
    (∃ d, stored.transcript[0]? = some d ∧ d.response.result = 0xF#64) ∧ stored.transcript[1]? = none := by decide

/-- The same acts performed. -/
theorem witness_HostChanges_acts :
    [HostAct.noise 3 0x3#64, .flip 2 3 0x3#64, .store 2 3 0x5#64, .storeResult 2 3 0, .copy 2 3 3].map
      (fun a => slotAfter 3 (step { stored with pending := [a] })) =
      [some 0x0000006FAB6EDCEF#64, some 0x0000006FAB6EDCEF#64, some 0x5#64, some 0xF#64, some 0x0000006FAB6EDCEC#64] ∧
    [HostAct.store 2 0 0x5#64, .storeResult 2 0 0, .copy 2 3 0].map (fun a => slotAfter 0 (step { stored with pending := [a] })) =
      [some 0x5#64, some 0xF#64, some 0x0000006FAB6EDCEC#64] := by decide

theorem witness_OneActAStep : ∃ t, step { stored with pending := [.noise 3 0x3#64] } = .next t := ⟨_, rfl⟩

theorem witness_Runs :
    { stored with pending := [.request 1 0x0#67, .request 2 0x30000000000000008#67] }.pending =
      [((1, 0x0#67) : Nat × BitVec 67), (2, 0x30000000000000008#67)].map (fun q => HostAct.request q.1 q.2) ++ [] ∧
    (decodeRequest 0x0#67).wellFormed = true ∧ (decodeRequest 0x30000000000000008#67).wellFormed = true := by decide

theorem witness_RefusalIsKept : Host.Core.run core 1 State.reset = .refused .noRequest := rfl

/-- A state that meets the invariant, with every field in use, and whose step goes on. -/
theorem witness_Invariant : stored.Inv ∧ ∃ t, step { stored with pending := [.writeBack 1 5] } = .next t := by
  refine ⟨⟨by decide, by decide, ?_, ?_⟩, _, rfl⟩
  · intro d hd
    simp only [stored, List.mem_singleton] at hd
    subst hd
    unfold Delivery.genuine
    decide +kernel
  · intro slot p h
    simp only [stored, Keyed.get] at h
    split at h
    · cases h; decide
    · cases h

end Sys2Proof.Tests
end

section
/-! PROOFS. Family 10_state: what an operation and a host act leave alone, and the invariant every step keeps. -/

namespace Sys2Proof.Machine

/-! ## Operations: the answer is all that is added -/

/-- A request with an answer is answered from every state. -/
theorem exec_of_answer {i : Instr} {r : Response} (h : answer i = some r) (s : State) :
    exec i s = .next (s.deliver i r) := by
  rw [exec_eq_answer, h]

/-- Every request with a meaning has an answer (R69, R145). -/
theorem exists_answer_of_wellFormed {i : Instr} (h : i.wellFormed = true) : ∃ r, answer i = some r := by
  cases i with
  | setParity w => exact ⟨succeed (setpar w), if_pos h⟩
  | _ => exact ⟨_, rfl⟩

/-- The response to a request with a meaning is chosen before the state (R20). -/
theorem exists_response_for_every_state {i : Instr} (h : i.wellFormed = true) :
    ∃ r, ∀ s, exec i s = .next (s.deliver i r) := by
  obtain ⟨r, hr⟩ := exists_answer_of_wellFormed h
  exact ⟨r, exec_of_answer hr⟩

/-- Settles O7: every request named is well formed, `setParity` by its hypothesis and the others by definition. -/
theorem everyOperationAnswersFromItsRequestAlone : Obligations.EveryOperationAnswersFromItsRequestAlone :=
  fun _ => ⟨exists_response_for_every_state rfl, exists_response_for_every_state rfl,
    exists_response_for_every_state rfl, fun hzero => exists_response_for_every_state hzero,
    exists_response_for_every_state rfl, exists_response_for_every_state rfl,
    exists_response_for_every_state rfl, exists_response_for_every_state rfl⟩

/-- Settles O8: the next state is the state with the answer received, and receiving it changes the transcript alone. -/
theorem operationsLeaveTheHostsStateAlone : Obligations.OperationsLeaveTheHostsStateAlone := by
  intro i s t h
  obtain ⟨r, ha, rfl⟩ := exec_next h
  exact ⟨s.deliver_pending i r, s.deliver_port i r, s.deliver_storage i r, s.deliver_inPlace i r,
    fun slot => congrArg (Keyed.get · slot) (s.deliver_storage i r), r, ha, s.deliver_transcript i r⟩

/-! ## Ports -/

/-- What `UNREPOS` gives is a payload (R26, R123). -/
theorem validPayload_unrepos (w : Word) : validPayload (unrepos w) := by
  refine Nat.lt_pow_two_of_testBit _ fun i hi => ?_
  have hbit : (unrepos w).getLsbD i = false := by simp [getLsbD_unrepos, Nat.not_lt.mpr hi]
  exact hbit

/-- Settles O6: each port is wired to its function; the count is by its range, `payload_out` by `UNREPOS`'s bits, and the
two `ok` agree as `DEC` keeps `CORR`'s. -/
theorem portsCarryTheirFunctions : Obligations.PortsCarryTheirFunctions :=
  ⟨toNat_popcount64, fun _ w => ⟨rfl, rfl, validPayload_unrepos w⟩, fun _ => rfl, fun _ => rfl,
    fun w => ⟨rfl, rfl, rfl, rfl, (dec_ok w).symm⟩⟩

/-! ## Host acts: one slot changes -/

/-- A step performs the act at the head of the queue, taken off it. -/
theorem step_of_pending {s : State} {a : HostAct} {rest : List HostAct} (hp : s.pending = a :: rest) :
    step s = perform a { s with pending := rest } := by
  simp only [step, hp]

/-- An act that goes through as one write to `slot` changes that slot and no other, by read after write. -/
theorem stepWrites_of_perform {s : State} {a : HostAct} {rest : List HostAct} {slot : Nat} {v : Word}
    (hp : s.pending = a :: rest)
    (ha : perform a { s with pending := rest } =
      .next { s with pending := rest, storage := Keyed.put s.storage slot v }) :
    s.stepWrites rest slot v :=
  ⟨Keyed.put s.storage slot v, (step_of_pending hp).trans ha, Keyed.get_put_same _ _ _,
    fun c hc => Keyed.get_put_other _ slot c v hc⟩

/-- Settles O52: each act, by the law of what it does, goes through as one write to the named slot. -/
theorem hostChangesOnlyTheNamedWord : Obligations.HostChangesOnlyTheNamedWord := by
  intro s rest worker slot
  refine ⟨fun w m hp hw => ?noise, fun hfree => ?_⟩
  case noise => exact stepWrites_of_perform hp (hostOutcome_eq_next.mpr (noiseSlot_ok.mpr ⟨w, hw, rfl⟩))
  have hwrite (v : Word) : State.writeSlot { s with pending := rest } worker slot v =
      .ok { s with pending := rest, storage := Keyed.put s.storage slot v } :=
    State.writeSlot_ok.mpr ⟨hfree, rfl⟩
  refine ⟨fun v hp => ?store, fun w m hp hw => ?flip, fun k d hp hd => ?storeResult,
    fun source w hp hsource hw => ?copy⟩
  case store => exact stepWrites_of_perform hp (hostOutcome_eq_next.mpr (hwrite v))
  case flip =>
    exact stepWrites_of_perform hp (hostOutcome_eq_next.mpr
      (flipSlot_ok.mpr ⟨w, State.readSlot_ok.mpr ⟨hfree, hw⟩, hwrite (w ^^^ m)⟩))
  case storeResult =>
    exact stepWrites_of_perform hp (hostOutcome_eq_next.mpr
      (storeResult_ok.mpr ⟨d.response.result, State.receivedResult_ok.mpr ⟨d, hd, rfl⟩, hwrite d.response.result⟩))
  case copy =>
    exact stepWrites_of_perform hp (hostOutcome_eq_next.mpr
      (copySlot_ok.mpr ⟨w, State.readSlot_ok.mpr ⟨hsource, hw⟩, hwrite w⟩))

/-! ## The invariant -/

/-- Taking an entry out of a canonical map adds none. -/
theorem Keyed.get_of_get_drop {α : Type} {m : Keyed α} {a c : Nat} {x : α} (hm : Keyed.wf m = true)
    (h : Keyed.get (Keyed.drop m a) c = some x) : Keyed.get m c = some x := by
  by_cases hc : c = a
  · subst hc
    rw [Keyed.get_drop_same c hm] at h
    cases h
  · rwa [Keyed.get_drop_other m a c hc] at h

/-- What a map holds after a write is the value written or was there before. -/
theorem Keyed.get_put_cases {α : Type} {m : Keyed α} {a c : Nat} {x y : α}
    (h : Keyed.get (Keyed.put m a x) c = some y) : y = x ∨ Keyed.get m c = some y := by
  by_cases hc : c = a
  · subst hc
    rw [Keyed.get_put_same, Option.some.injEq] at h
    exact .inl h.symm
  · rw [Keyed.get_put_other m a c x hc] at h
    exact .inr h

/-- Receiving the answer to a request keeps the invariant. The in-place table may name the response now received: it is
number `s.transcript.length` of the transcript. -/
theorem State.Inv.deliver {s : State} (hs : s.Inv) {i : Instr} {r : Response} (ha : answer i = some r) (port : Nat)
    {table : Keyed InPlace} (hwf : Keyed.wf table = true)
    (hindex : ∀ slot p, Keyed.get table slot = some p → p.index ≤ s.transcript.length) :
    (({ s with inPlace := table, port := port } : State).deliver i r).Inv := by
  obtain ⟨hstorage, -, hgenuine, -⟩ := hs
  refine ⟨hstorage, hwf, fun d hd => ?_, fun slot p hp => ?_⟩
  · rcases List.mem_append.mp hd with hold | hnew
    · exact hgenuine d hold
    · rw [List.mem_singleton.mp hnew]
      exact ha
  · have hle := hindex slot p hp
    rw [State.deliver_transcript, List.length_append]
    exact Nat.lt_succ_of_le hle

/-- Writing a slot keeps the invariant, also where operations in place end with it. -/
theorem State.Inv.write {s : State} (hs : s.Inv) (slot : Nat) (v : Word) {table : Keyed InPlace}
    (hwf : Keyed.wf table = true) (hsub : ∀ a p, Keyed.get table a = some p → Keyed.get s.inPlace a = some p) :
    ({ s with storage := Keyed.put s.storage slot v, inPlace := table } : State).Inv := by
  obtain ⟨hstorage, -, hgenuine, hindex⟩ := hs
  exact ⟨Keyed.wf_put slot v hstorage, hwf, hgenuine, fun a p hp => hindex a p (hsub a p hp)⟩

/-- Every act that goes through keeps the invariant. -/
theorem perform_keeps_inv {a : HostAct} {s t : State} (hs : s.Inv) (h : perform a s = .next t) : t.Inv := by
  have ⟨_, htable, _, hindex⟩ := hs
  rcases perform_next h with ⟨port, i, r, ha, rfl⟩ | ⟨worker, slot, port, i, r, ha, rfl⟩ | ⟨slot, v, rfl⟩ | ⟨slot, v, rfl⟩
  case inl => exact hs.deliver ha port htable fun slot p hp => (hindex slot p hp).le
  case inr.inl =>
    refine hs.deliver ha port (Keyed.wf_put slot _ htable) fun c p hp => ?_
    rcases Keyed.get_put_cases hp with rfl | hold
    · exact le_rfl
    · exact (hindex c p hold).le
  case inr.inr.inl => exact hs.write slot v htable fun _ _ hp => hp
  case inr.inr.inr => exact hs.write slot v (Keyed.wf_drop slot htable) fun _ _ hp => Keyed.get_of_get_drop htable hp

/-- Settles O57: a step takes the first act off, which the invariant does not read, and performs it. -/
theorem everyStepKeepsTheInvariant : Obligations.EveryStepKeepsTheInvariant := by
  intro s t hs h
  obtain ⟨a, rest, -, hperform⟩ := step_next h
  have htaken : ({ s with pending := rest } : State).Inv := hs
  exact perform_keeps_inv htaken hperform

/-- Settles O56: at reset every list is empty, so nothing can break the invariant. -/
theorem resetMeetsTheInvariant : Obligations.ResetMeetsTheInvariant := by
  refine ⟨⟨rfl, rfl, fun d hd => ?_, fun slot p hp => ?_⟩, rfl, rfl, rfl, rfl⟩
  · exact absurd hd List.not_mem_nil
  · cases hp

end Sys2Proof.Machine
end

section
/-! PROOFS. Family 20_memory: operations in place, races, and runs of requests. -/

namespace Sys2Proof.Machine

/-! ## One act a step -/

/-- An act that goes through takes nothing off the queue and adds at most one response after those received. -/
theorem perform_appends_responses {a : HostAct} {s t : State} (h : perform a s = .next t) :
    t.pending = s.pending ∧ ∃ ds, t.transcript = s.transcript ++ ds ∧ ds.length ≤ 1 := by
  rcases perform_next h with ⟨_, _, _, -, rfl⟩ | ⟨_, _, _, _, _, -, rfl⟩ | ⟨_, _, rfl⟩ | ⟨_, _, rfl⟩
  case inl => exact ⟨rfl, _, rfl, le_rfl⟩
  case inr.inl => exact ⟨rfl, _, rfl, le_rfl⟩
  case inr.inr.inl => exact ⟨rfl, [], (List.append_nil _).symm, Nat.zero_le 1⟩
  case inr.inr.inr => exact ⟨rfl, [], (List.append_nil _).symm, Nat.zero_le 1⟩

/-- Settles O53: a step takes one act off the queue, and performing it leaves the queue and appends to the responses. -/
theorem oneActAStep : Obligations.OneActAStep := by
  intro s t h
  obtain ⟨a, rest, hp, hperform⟩ := step_next h
  obtain ⟨hpending, ds, hds, hlen⟩ := perform_appends_responses hperform
  refine ⟨⟨a, ?queue⟩, ⟨ds, hds.symm⟩, ?length⟩
  case queue => rw [hpending, hp]
  case length =>
    rw [hds, List.length_append]
    exact Nat.add_le_add_left hlen _

/-! ## Races -/

/-- A slot whose operation in place is another worker's is mutated by another. -/
theorem State.mutatedByOther_of_get {s : State} {worker slot : Nat} {p : InPlace}
    (hp : Keyed.get s.inPlace slot = some p) (hw : p.worker ≠ worker) : s.mutatedByOther worker slot = true := by
  rw [State.mutatedByOther, hp]
  exact bne_iff_ne.mpr hw

/-- Reading a slot another worker is mutating is the race of R48. -/
theorem State.readSlot_race {s : State} {worker slot : Nat} (h : s.mutatedByOther worker slot = true) :
    s.readSlot worker slot = .error .storageRace := if_pos h

/-- Writing a slot another worker is mutating is the race of R48. -/
theorem State.writeSlot_race {s : State} {worker slot : Nat} (h : s.mutatedByOther worker slot = true) (v : Word) :
    s.writeSlot worker slot v = .error .storageRace := if_pos h

/-- Writing back the result of another worker's operation in place is the race of R48. -/
theorem writeBack_race {s : State} {worker slot : Nat} {p : InPlace}
    (hp : Keyed.get s.inPlace slot = some p) (hw : p.worker ≠ worker) :
    writeBack s worker slot = .error .storageRace := by
  simp only [writeBack, hp]
  exact if_pos (bne_iff_ne.mpr hw)

/-- Keeping a received result is writing it to the slot. -/
theorem storeResult_of_received {s : State} {k : Nat} {w : Word} (h : s.receivedResult k = .ok w) (worker slot : Nat) :
    storeResult s worker slot k = s.writeSlot worker slot w := by
  rw [storeResult, h]

/-- Copying a slot that can be read is writing what it holds to the target. -/
theorem copySlot_of_read {s : State} {worker source : Nat} {w : Word} (h : s.readSlot worker source = .ok w)
    (target : Nat) : copySlot s worker source target = s.writeSlot worker target w := by
  rw [copySlot, h]

/-- An act that reads a slot for an operand or a word, and cannot, is refused for that read's reason. -/
theorem perform_of_read_error {s : State} {worker slot : Nat} {e : Refusal} (h : s.readSlot worker slot = .error e) :
    (∀ n op, perform (.requestStored worker n op slot) s = .refused e) ∧
    (∀ n op, perform (.requestInPlace worker n op slot) s = .refused e) ∧
    (∀ m, perform (.flip worker slot m) s = .refused e) ∧
    (∀ target, perform (.copy worker slot target) s = .refused e) := by
  refine ⟨fun n op => ?_, fun n op => ?_, fun m => ?_, fun target => ?_⟩
  · rw [perform, presentStored, h]
  · rw [perform, presentInPlace, h]
  · rw [perform, flipSlot, h, hostOutcome]
  · rw [perform, copySlot, h, hostOutcome]

/-- Settles O51: each act reads the slot, writes it, or writes another's result back, and all three are the race. What
`storeResult` and `copy` read first does not fail: the response is received, the source readable. -/
theorem readBesideMutationIsRefused : Obligations.ReadBesideMutationIsRefused := by
  intro s worker slot p rest a hp hw hpending hact
  have hrace : State.mutatedByOther { s with pending := rest } worker slot = true := State.mutatedByOther_of_get hp hw
  have ⟨hstored, hinPlace, hflip, hcopy⟩ := perform_of_read_error (State.readSlot_race hrace)
  rw [step_of_pending hpending]
  rcases hact with ⟨n, op, rfl⟩ | ⟨n, op, rfl⟩ | rfl | ⟨v, rfl⟩ | ⟨m, rfl⟩ | ⟨k, hk, rfl⟩ | ⟨target, rfl⟩ |
    ⟨source, w, hfree, hword, rfl⟩
  · exact hstored n op
  · exact hinPlace n op
  · exact congrArg hostOutcome (writeBack_race (s := { s with pending := rest }) hp hw)
  · exact congrArg hostOutcome (State.writeSlot_race hrace v)
  · exact hflip m
  · have hreceived : State.receivedResult { s with pending := rest } k = .ok s.transcript[k].response.result :=
      State.receivedResult_ok.mpr ⟨_, List.getElem?_eq_getElem hk, rfl⟩
    exact congrArg hostOutcome ((storeResult_of_received hreceived worker slot).trans (State.writeSlot_race hrace _))
  · exact hcopy target
  · have hread : State.readSlot { s with pending := rest } worker source = .ok w :=
      State.readSlot_ok.mpr ⟨hfree, hword⟩
    exact congrArg hostOutcome ((copySlot_of_read hread slot).trans (State.writeSlot_race hrace w))

/-! ## An operation in place -/

/-- An operation in place on a readable slot, its request answered: the slot is marked as the worker's, with the number
the response takes in the transcript, and the response is received (R41). -/
theorem perform_requestInPlace {s : State} {worker n slot : Nat} {op : BitVec 3} {w : Word} {r : Response}
    (hread : s.readSlot worker slot = .ok w) (ha : answer (decodeFields op w) = some r) :
    perform (.requestInPlace worker n op slot) s =
      .next (State.deliver
        { s with inPlace := Keyed.put s.inPlace slot { worker := worker, index := s.transcript.length }, port := n }
        (decodeFields op w) r) := by
  rw [perform, presentInPlace, hread]
  simp only [present, Laws.decodeRequest_append]
  exact exec_of_answer ha _

/-- Writing the response of one's own operation in place back: the slot takes its result and the operation ends (R41). -/
theorem perform_writeBack {s : State} {worker slot : Nat} {p : InPlace} {d : Delivery}
    (hp : Keyed.get s.inPlace slot = some p) (hw : p.worker = worker) (hd : s.transcript[p.index]? = some d) :
    perform (.writeBack worker slot) s =
      .next { s with storage := Keyed.put s.storage slot d.response.result, inPlace := Keyed.drop s.inPlace slot } :=
  hostOutcome_eq_next.mpr (writeBack_ok.mpr ⟨p, _, hp, hw, State.receivedResult_ok.mpr ⟨d, hd, rfl⟩, rfl⟩)

/-- Settles O50: the response received is the transcript's next, the one the mark names, so the write-back finds it; the
reads after it are reads after a write to the slot and after the mark is taken out. -/
theorem inPlaceOperationWritesTheResultBack : Obligations.InPlaceOperationWritesTheResultBack := by
  intro s rest worker n slot op w r hpending hfree hword ha
  have hread : State.readSlot { s with pending := .writeBack worker slot :: rest } worker slot = .ok w :=
    State.readSlot_ok.mpr ⟨hfree, hword⟩
  have hfirst := (step_of_pending hpending).trans (perform_requestInPlace (n := n) hread ha)
  have hmark := Keyed.get_put_same s.inPlace slot { worker := worker, index := s.transcript.length }
  refine ⟨_, _, hfirst, rfl, hmark,
    (step_of_pending rfl).trans (perform_writeBack hmark rfl List.getElem?_concat_length), rfl,
    fun hwf => ?ended, fun a hne => ?others, Keyed.get_put_same _ _ _, fun a hne => Keyed.get_put_other _ _ _ _ hne, rfl⟩
  case ended => exact Keyed.get_drop_same slot (Keyed.wf_put slot _ hwf)
  case others => exact (Keyed.get_drop_other _ slot a hne).trans (Keyed.get_put_other _ slot a _ hne)

/-! ## Runs of requests -/

/-- A run whose first step goes on is the run from there. -/
theorem run_succ_of_step {s t : State} (h : step s = .next t) (k : Nat) :
    Host.Core.run core (k + 1) s = Host.Core.run core k t := by
  have hcore : core.step s = .next t := h
  simp only [Host.Core.run, hcore]

/-- A pending request that has an answer receives it, from the instance it names (R65, R240). -/
theorem step_of_request {s : State} {rest : List HostAct} {n : Nat} {q : BitVec 67} {r : Response}
    (hp : s.pending = .request n q :: rest) (ha : answer (decodeRequest q) = some r) :
    step s = .next (State.deliver { s with pending := rest, port := n } (decodeRequest q) r) :=
  (step_of_pending hp).trans (exec_of_answer ha _)

/-- Settles O54, by induction on the requests: the first receives its answer, and the others run from a state that
differs only in the queue, the instance driven and that one response. -/
theorem runsAnswerEachRequestOnItsOwn : Obligations.RunsAnswerEachRequestOnItsOwn := by
  intro reqs
  induction reqs with
  | nil =>
    intro s rest hp _
    exact ⟨s, [], rfl, hp, rfl, rfl, (List.append_nil _).symm, .nil⟩
  | cons q reqs ih =>
    intro s rest hp hwf
    obtain ⟨hq, hreqs⟩ := List.forall_mem_cons.mp hwf
    obtain ⟨r, ha⟩ := exists_answer_of_wellFormed hq
    obtain ⟨t, ds, hrun, hpending, hstorage, hinPlace, htranscript, hanswers⟩ :=
      ih (State.deliver { s with pending := reqs.map (fun q => HostAct.request q.1 q.2) ++ rest, port := q.1 }
        (decodeRequest q.2) r) rest rfl hreqs
    refine ⟨t, { port := q.1, request := decodeRequest q.2, response := r } :: ds,
      (run_succ_of_step (step_of_request hp ha) _).trans hrun, hpending, hstorage, hinPlace, ?transcript,
      .cons ⟨rfl, rfl, ha⟩ hanswers⟩
    case transcript => rw [htranscript, State.deliver_transcript, List.append_assoc, List.singleton_append]

end Sys2Proof.Machine
end

section
/-! PROOFS. Family 30_encoding: requests and their written forms, positions of the payload and of the check bits. -/

namespace Sys2Proof.Machine

/-! ## The fields of a request -/

/-- The three bits of an op code are one of the eight rows of the opcode map (R67, R69). -/
theorem op_cases (op : BitVec 3) : op = 0b000#3 ∨ op = 0b001#3 ∨ op = 0b010#3 ∨ op = 0b011#3 ∨
    op = 0b100#3 ∨ op = 0b101#3 ∨ op = 0b110#3 ∨ op = 0b111#3 := by
  revert op; decide

/-- The operation an op code selects has that op code. -/
theorem opCode_decodeFields (op : BitVec 3) (x : Word) : opCode (decodeFields op x) = op := by
  rcases op_cases op with rfl | rfl | rfl | rfl | rfl | rfl | rfl | rfl <;> rfl

/-- The operation an op code selects keeps its operand (R68). -/
theorem operand_decodeFields (op : BitVec 3) (x : Word) : (decodeFields op x).operand = x := by
  rcases op_cases op with rfl | rfl | rfl | rfl | rfl | rfl | rfl | rfl <;> rfl

/-- An operation is the one its op code and operand select. -/
theorem decodeFields_opCode_operand (i : Instr) : decodeFields (opCode i) i.operand = i := by
  cases i <;> simp [decodeFields, opCode, Instr.operand]

/-- Decoding undoes encoding: the two fields stand apart in the request. -/
theorem decodeRequest_encodeRequest (i : Instr) : decodeRequest (encodeRequest i) = i :=
  (Laws.decodeRequest_append (opCode i) i.operand).trans (decodeFields_opCode_operand i)

/-- Encoding undoes decoding: the operation keeps both fields, and a request is nothing but them. -/
theorem encodeRequest_decodeRequest (q : BitVec 67) : encodeRequest (decodeRequest q) = q := by
  rw [encodeRequest, decodeRequest, opCode_decodeFields, operand_decodeFields, Laws.fields_append]

/-- Settles O2: decoding and encoding undo each other, field by field. -/
theorem decodingAndEncodingAreInverse : Obligations.DecodingAndEncodingAreInverse :=
  ⟨decodeRequest_encodeRequest, encodeRequest_decodeRequest⟩

/-- Settles O1: a request of two fields decodes to what its op field selects, row by row. -/
theorem requestFieldsSelectTheOperation : Obligations.RequestFieldsSelectTheOperation := by
  intro op x
  rw [Laws.decodeRequest_append]
  refine ⟨?_, ?_, ?_, ?_, ?_, ?_, ?_, ?_⟩ <;> (rintro rfl; rfl)

/-- Settles O3: nine closed words, each evaluated. -/
theorem writtenRequestsDecode : Obligations.WrittenRequestsDecode := by
  unfold Obligations.WrittenRequestsDecode
  decide

/-! ## Running a request -/

/-- A packed number that decodes is below 2^67, and its 67 bits are the request (R65, R71). -/
theorem decodeTableWord_eq_some {nbits w : Nat} {i : Instr} (h : decodeTableWord nbits w = some i) :
    decodeRequest (BitVec.ofNat 67 (w % 2 ^ nbits)) = i := by
  by_cases hw : packedWellFormed (w % 2 ^ nbits) = true
  · simpa [decodeTableWord, decodePacked, hw] using h
  · simp [decodeTableWord, decodePacked, hw] at h

/-- Settles O48: the pending request is presented, decoded; a fetched word is the first pending act, and taking it off
leaves the state as it was. -/
theorem stepRunsTheDecodedRequest : Obligations.StepRunsTheDecodedRequest := by
  refine ⟨fun s rest n q hp => step_of_pending hp, fun s nbits w i h => ?_⟩
  have hp : (s.withFetchWord nbits w).pending = .request s.port (BitVec.ofNat 67 (w % 2 ^ nbits)) :: s.pending := rfl
  rw [step_of_pending hp, ← decodeTableWord_eq_some h]
  rfl

/-- Settles O49: the slot is readable, so the request presented is the op code above the word it holds. -/
theorem storedOperandIsTheStoredWord : Obligations.StoredOperandIsTheStoredWord := by
  intro s rest worker n slot op w hp hfree hword
  have hread : State.readSlot { s with pending := rest } worker slot = .ok w := State.readSlot_ok.mpr ⟨hfree, hword⟩
  rw [step_of_pending hp, perform, presentStored, hread]
  simp only [present, Laws.decodeRequest_append]

/-! ## Responses -/

/-- `ok` is bit 64 of the packed response (R66). -/
theorem getLsbD_pack_ok (r : Response) : r.pack.getLsbD 64 = r.ok := by
  rw [Response.pack, BitVec.getLsbD_append, if_neg (by decide), Nat.sub_self]
  cases r.ok <;> rfl

/-- `result` is bits 63:0 of the packed response (R66). -/
theorem extractLsb'_pack_result (r : Response) : r.pack.extractLsb' 0 64 = r.result := by
  rw [Response.pack]
  exact BitVec.extractLsb'_append_eq_right

/-- An operation with no failure mode answers through `succeed`, so with `ok = 1` (R23, R66). -/
theorem ok_of_answer_of_not_canFail {i : Instr} {r : Response} (ha : answer i = some r) (hi : i.canFail = false) :
    r.ok = true := by
  cases i with
  | correctBlock w => cases hi
  | decode w => cases hi
  | setParity w =>
    rcases responseSetParity_eq w with ⟨-, hr⟩ | ⟨-, hr⟩
    · cases hr.symm.trans ha; rfl
    · cases hr.symm.trans ha
  | _ => cases ha; rfl

/-- An ill-formed request has no answer: it is a `setParity` with a nonzero parity position (R145). -/
theorem answer_of_not_wellFormed {i : Instr} (h : i.wellFormed = false) : answer i = none := by
  cases i with
  | setParity w => exact if_neg (Bool.eq_false_iff.mp h)
  | _ => cases h

/-- Settles O4: the packing by its two fields, and the unified interface packs the answer where there is one. -/
theorem responseFormat : Obligations.ResponseFormat := by
  refine ⟨fun r => ⟨getLsbD_pack_ok r, extractLsb'_pack_result r⟩, fun _ _ => ok_of_answer_of_not_canFail,
    fun q hq => ?illFormed, fun q hq => ?wellFormed⟩
  case illFormed => rw [unifiedInterface, answer_of_not_wellFormed hq, Option.map_none]
  case wellFormed =>
    obtain ⟨r, ha⟩ := exists_answer_of_wellFormed hq
    exact ⟨r, ha, by rw [unifiedInterface, ha, Option.map_some]⟩

/-! ## Written forms -/

/-- Digits written are read back, after those read so far. -/
theorem readDigits_hexDigits (n v soFar : Nat) (h : v < 16 ^ n) :
    readDigits 16 soFar (hexDigits n v) = some (16 ^ n * soFar + v) := by
  induction n generalizing v with
  | zero =>
    have hv : v = 0 := by omega
    simp [hexDigits, readDigits, hv]
  | succ n ih =>
    have hhigh : v / 16 < 16 ^ n := Nat.div_lt_of_lt_mul (by rwa [← Nat.pow_succ'])
    have hlow : digitValue 16 (hexChar (v % 16)) = some (v % 16) := digitValue_hexChar _ (Nat.mod_lt _ (by decide))
    have hvalue : 16 * (16 ^ n * soFar + v / 16) + v % 16 = 16 ^ (n + 1) * soFar + v := by
      rw [Nat.mul_add, ← Nat.mul_assoc, ← Nat.pow_succ', Nat.add_assoc, Nat.div_add_mod]
    rw [hexDigits, readDigits_append, ih _ hhigh, Option.bind_some, readDigits, hlow, Option.bind_some, readDigits, hvalue]

/-- A numeral written in `n` digits is read back where `n` digits may be read. -/
theorem readNumeral_hexNumeral {n most v : Nat} (hn : 0 < n) (hmost : n ≤ most) (h : v < 16 ^ n) :
    readNumeral most (hexNumeral n v) = some v := by
  have hlength := length_hexDigits n v
  have hdigits : ¬ (hexDigits n v = [] ∨ most < (hexDigits n v).length) := by
    rintro (hnil | hlong)
    · rw [hnil, List.length_nil] at hlength; omega
    · omega
  rw [hexNumeral, readNumeral, if_neg hdigits, readDigits_hexDigits n v 0 h, Nat.mul_zero, Nat.zero_add]

/-- A mnemonic names its own operation. -/
theorem readMnemonic_mnemonic (i : Instr) : readMnemonic (mnemonic i) i.operand = some i := by
  cases i <;> rfl

/-- A name without a space, a space and a numeral below 2^64 are read as the name's operation on that number. -/
theorem readRequest_ofList {name digits : List Char} {v : Nat} (hname : ∀ c ∈ name, (c != ' ') = true)
    (hdigits : readNumeral 16 digits = some v) (hv : v < 2 ^ 64) :
    readRequest (String.ofList (name ++ ' ' :: digits)) = readMnemonic (String.ofList name) (BitVec.ofNat 64 v) := by
  have hbefore : (name ++ ' ' :: digits).takeWhile (· != ' ') = name := by
    rw [List.takeWhile_append_of_pos hname, List.takeWhile_cons_of_neg (by decide), List.append_nil]
  have hafter : ((name ++ ' ' :: digits).dropWhile (· != ' ')).drop 1 = digits := by
    rw [List.dropWhile_append_of_pos hname, List.dropWhile_cons_of_neg (by decide), List.drop_one, List.tail_cons]
  simp only [readRequest, String.toList_ofList, hbefore, hafter, hdigits]
  exact if_pos hv

/-- `<mnemonic> <operand>` reads back: no mnemonic holds a space, and the operand is below 2^64. -/
theorem readRequest_writeRequest (i : Instr) : readRequest (writeRequest i) = some i := by
  have hoperand : i.operand.toNat < 2 ^ 64 := i.operand.isLt
  have hnumeral : readNumeral 16 (hexNumeral 16 i.operand.toNat) = some i.operand.toNat :=
    readNumeral_hexNumeral (by decide) le_rfl hoperand
  rw [writeRequest, readRequest_ofList (mnemonic_no_space i) hnumeral hoperand, String.ofList_toList, BitVec.ofNat_toNat,
    BitVec.setWidth_eq, readMnemonic_mnemonic]

/-- The packed request reads back: it is below 2^67, so 17 digits hold it and the decoder takes it. -/
theorem readPacked_writePacked (i : Instr) : readPacked (writePacked i) = some i := by
  have hpacked : encodePacked i < 2 ^ 67 := (encodeRequest i).isLt
  have hnumeral : readNumeral 17 (hexNumeral 17 (encodePacked i)) = some (encodePacked i) :=
    readNumeral_hexNumeral (by decide) le_rfl (hpacked.trans (by decide))
  have hdecode : decodePacked (encodePacked i) = .ok i := by
    rw [decodePacked, packedWellFormed, decide_eq_true hpacked, if_pos rfl, encodePacked, BitVec.ofNat_toNat,
      BitVec.setWidth_eq, decodeRequest_encodeRequest]
  simp only [readPacked, writePacked, String.toList_ofList, hnumeral, hdecode]

/-- Settles O5: each written form reads back on its own. -/
theorem writtenFormReadsBack : Obligations.WrittenFormReadsBack :=
  fun i => ⟨readRequest_writeRequest i, readPacked_writePacked i⟩

/-! ## Positions -/

/-- `DATA_MASK` is the complement of `PARITY_MASK` (R61). -/
theorem dataMask_eq_not_parityMask : dataMask = ~~~parityMask := by decide

/-- The bits of `DATA_MASK` are the positions outside `PPOS`. -/
theorem getLsbD_dataMask {j : Nat} (hj : j < 64) : dataMask.getLsbD j = decide (j ∉ parityPositions) := by
  rw [dataMask_eq_not_parityMask, BitVec.getLsbD_not, getLsbD_parityMask, decide_eq_true hj, Bool.true_and, decide_not]

/-- The positions outside `PPOS` are those `DPOS` takes (R62). -/
theorem not_parity_iff_dpos {j : Nat} (hj : j < 64) : j ∉ parityPositions ↔ ∃ i, i < 57 ∧ dpos i = j := by
  constructor
  · exact (position_cases hj).resolve_left
  · rintro ⟨i, hi, rfl⟩
    exact dpos_not_parity hi

/-- Settles O13: the mask by its bits, the rest by evaluation. -/
theorem parityPositionMasks : Obligations.ParityPositionMasks :=
  ⟨fun i _ => getLsbD_parityMask i, dataMask_eq_not_parityMask, by decide, rfl, rfl⟩

/-- Settles O14: the list is evaluated against the closed form; the image is what lies outside `PPOS`. -/
theorem payloadPositions_enumerated : Obligations.PayloadPositions := by
  refine ⟨by decide, by decide, fun i j => dpos_strictMono, fun j hj => ?image, rfl⟩
  case image => rw [getLsbD_dataMask hj, decide_eq_true_iff, not_parity_iff_dpos hj]

/-! ## The fields of a codeword -/

/-- Payload bit `i` stands at `DPOS(i)` in the codeword: the check bits are written elsewhere. -/
theorem getLsbD_enc_dpos (p : Word) {i : Nat} (hi : i < 57) : (enc p).getLsbD (dpos i) = p.getLsbD i := by
  rw [enc, getLsbD_setpar_payload _ (dpos_not_parity hi), getLsbD_repos_dpos p hi]

/-- Where `DPOS` runs on from `a` without a gap, the field of the codeword is the field of the payload. -/
theorem extractLsb'_enc (p : Word) {a b n : Nat} (h : ∀ j < n, b + j < 57 ∧ dpos (b + j) = a + j) :
    (enc p).extractLsb' a n = p.extractLsb' b n := by
  apply BitVec.eq_of_getLsbD_eq
  intro j hj
  obtain ⟨hi, hpos⟩ := h j hj
  rw [BitVec.getLsbD_extractLsb', BitVec.getLsbD_extractLsb', ← hpos, getLsbD_enc_dpos p hi]

/-- Clearing the bit just written into a 0 gives the word before the write. -/
theorem setBit_zero_and_not_one {v : Word} (h : v.getLsbD 0 = false) (b : Bool) : setBit v 0 b &&& ~~~1#64 = v := by
  apply BitVec.eq_of_getLsbD_eq
  intro j hj
  rw [BitVec.getLsbD_and, getLsbD_setBit _ _ _ _ (by decide), BitVec.getLsbD_not, BitVec.getLsbD_one]
  by_cases h0 : j = 0
  · rw [h0, h]; simp
  · simp [h0, hj]

/-- The extended parity bit of `SETPAR(w)` is the parity of all its other bits (R143, R144). -/
theorem getLsbD_setpar_zero {w : Word} (h : w.getLsbD 0 = false) :
    (setpar w).getLsbD 0 = parity (setpar w &&& ~~~1#64) := by
  have hbefore : (writePositional (gp w) w 6).getLsbD 0 = false := by
    have hnone : ¬ ∃ k < 6, 0 = 2 ^ k := fun ⟨k, _, hk⟩ => (Nat.two_pow_pos k).ne hk
    rw [getLsbD_writePositional _ _ _ _ le_rfl, dif_neg hnone, h]
  rw [getLsbD_setpar_extended, setpar, setBit_zero_and_not_one hbefore]

/-- Settles O16: `DPOS` runs on without a gap between check positions, and the check bits are those `SETPAR` writes. -/
theorem codewordFields : Obligations.CodewordFields := fun p =>
  ⟨extractLsb'_enc p (by decide), extractLsb'_enc p (by decide), extractLsb'_enc p (by decide),
    extractLsb'_enc p (by decide), extractLsb'_enc p (by decide), getLsbD_setpar_positional (repos p),
    getLsbD_setpar_zero (getLsbD_repos_parity p (by decide))⟩

/-! ## Payloads -/

/-- A payload is valid exactly when its bits 63:57 are 0 (R26, R63). -/
theorem validPayload_iff_extractLsb' (p : Word) : validPayload p ↔ p.extractLsb' 57 7 = 0#7 := by
  have hp : p.toNat < 2 ^ 64 := p.isLt
  rw [validPayload, BitVec.toNat_eq, BitVec.extractLsb'_toNat, Nat.shiftRight_eq_div_pow, BitVec.toNat_ofNat]
  omega

/-- `REPOS` reads bits 56:0 alone (R121). -/
theorem repos_congr {p q : Word} (h : p.extractLsb' 0 57 = q.extractLsb' 0 57) : repos p = repos q := by
  refine eq_of_positions (fun i hi => ?payload) (fun j hj => ?parity)
  case payload =>
    have hbit := congrArg (BitVec.getLsbD · i) h
    simpa [hi] using hbit
  case parity => rw [getLsbD_repos_parity p hj, getLsbD_repos_parity q hj]

/-- Settles O17: what the block reads of a payload goes through `REPOS`, what it produces comes from `UNREPOS`. -/
theorem payloadFormat : Obligations.PayloadFormat := by
  have hproduced (w : Word) : (unrepos w).extractLsb' 57 7 = 0#7 :=
    (validPayload_iff_extractLsb' _).mp (validPayload_unrepos w)
  refine ⟨validPayload_iff_extractLsb', fun p q h => ?read, fun w => ⟨_, rfl, hproduced w⟩,
    fun w => ⟨_, rfl, fun hok => ?decoded⟩⟩
  case read =>
    have hrepos := repos_congr h
    simp only [answer, responseReposition, responseEncode, enc, hrepos, and_self]
  case decoded =>
    have hcorr : (corr w).ok = true := (dec_ok w).symm.trans hok
    rw [responseDecode, dec_of_ok hcorr]
    exact hproduced _

end Sys2Proof.Machine
end

section
/-! PROOFS. Family 40_popcount: what `popcount` answers, parity as an XOR, and the arithmetic laws of the count. -/

namespace Sys2Proof.Machine

/-! ## The count as a sum -/

/-- `countBelow` is the sum of R100, cut off at `n` bits. -/
theorem countBelow_eq_sum (x : Word) (n : Nat) : countBelow x n = ∑ i ∈ Finset.range n, (x.getLsbD i).toNat := by
  induction n with
  | zero => rfl
  | succ n ih => rw [countBelow, ih, Finset.sum_range_succ]

theorem popcount_eq_sum (x : Word) : popcount x = ∑ i ∈ Finset.range 64, (x.getLsbD i).toNat :=
  countBelow_eq_sum x 64

/-! ## The laws of R104 -/

/-- A half adder, bit by bit: where both words have a 1 their XOR has none, and the sum of the counts has two. -/
theorem countBelow_xor_add_and (a b : Word) (n : Nat) :
    countBelow (a ^^^ b) n + 2 * countBelow (a &&& b) n = countBelow a n + countBelow b n := by
  induction n with
  | zero => rfl
  | succ n ih =>
    have hbit : ∀ p q : Bool, (p ^^ q).toNat + 2 * (p && q).toNat = p.toNat + q.toNat := by decide
    have hn := hbit (a.getLsbD n) (b.getLsbD n)
    simp only [countBelow, BitVec.getLsbD_xor, BitVec.getLsbD_and]
    omega

theorem popcount_xor_add_and (a b : Word) :
    popcount (a ^^^ b) + 2 * popcount (a &&& b) = popcount a + popcount b :=
  countBelow_xor_add_and a b 64

theorem parity_xor (a b : Word) : parity (a ^^^ b) = (parity a ^^ parity b) := by
  have hxor : ∀ r p q : Bool, r.toNat = (p.toNat + q.toNat) % 2 → r = (p ^^ q) := by decide
  have hlaw := popcount_xor_add_and a b
  apply hxor
  rw [toNat_parity, toNat_parity, toNat_parity]
  omega

/-- A word and its complement have disjoint bits that together are all 64: no bit is counted twice and none is missed. -/
theorem popcount_not_add (a : Word) : popcount (~~~a) + popcount a = 64 := by
  have hlaw := popcount_xor_add_and (~~~a) a
  have hand : popcount (~~~a &&& a) = 0 := by rw [BitVec.and_comm, BitVec.and_not_self]; rfl
  have hxor : ~~~a ^^^ a = BitVec.allOnes 64 := by
    refine BitVec.eq_of_getLsbD_eq fun i hi => ?_
    rw [BitVec.getLsbD_xor, BitVec.getLsbD_not, BitVec.getLsbD_allOnes, decide_eq_true hi, Bool.true_and, Bool.not_xor_self]
  have hones : popcount (BitVec.allOnes 64) = 64 := by decide
  rw [hxor] at hlaw
  omega

theorem popcount_eq_zero_iff (a : Word) : popcount a = 0 ↔ a = 0#64 := by
  constructor
  · intro h
    rw [popcount_eq_sum, Finset.sum_eq_zero_iff] at h
    apply BitVec.eq_of_getLsbD_eq
    intro i hi
    rw [BitVec.getLsbD_zero]
    exact Bool.toNat_eq_zero.mp (h i (Finset.mem_range.mpr hi))
  · rintro rfl
    rfl

/-- Only the all-ones word has a complement without a 1. -/
theorem popcount_eq_64_iff (a : Word) : popcount a = 64 ↔ a = 0xFFFFFFFFFFFFFFFF#64 := by
  have hsum := popcount_not_add a
  calc popcount a = 64
    _ ↔ popcount (~~~a) = 0 := by omega
    _ ↔ ~~~a = 0#64 := popcount_eq_zero_iff _
    _ ↔ a = 0xFFFFFFFFFFFFFFFF#64 := BitVec.not_eq_comm

/-! ## Flipping bits -/

theorem popcount_one_shiftLeft {i : Nat} (hi : i < 64) : popcount (1#64 <<< i) = 1 := by
  have hbit (j : Nat) (hj : j ∈ Finset.range 64) : ((1#64 <<< i).getLsbD j).toNat = if j = i then 1 else 0 := by
    rw [getLsbD_one_shiftLeft, decide_eq_true (Finset.mem_range.mp hj), Bool.and_true]
    exact apply_ite Bool.toNat (j = i) true false
  rw [popcount_eq_sum, Finset.sum_congr rfl hbit, Finset.sum_ite_eq', if_pos (Finset.mem_range.mpr hi)]

/-- Masking a word adds no 1 to the mask. -/
theorem popcount_and_le_right (a b : Word) : popcount (a &&& b) ≤ popcount b := by
  have hbit : ∀ p q : Bool, (p && q).toNat ≤ q.toNat := by decide
  rw [popcount_eq_sum, popcount_eq_sum]
  refine Finset.sum_le_sum fun i _ => ?_
  rw [BitVec.getLsbD_and]
  exact hbit _ _

/-- The law of XOR with a single bit: that bit is counted where `a` had a 0, and its 1 is taken off where it had a 1. -/
theorem popcount_flipBit (a : Word) {i : Nat} (hi : i < 64) :
    popcount (flipBit a i) = popcount a + 1 ∨ popcount (flipBit a i) + 1 = popcount a := by
  have hlaw := popcount_xor_add_and a (1#64 <<< i)
  have hle := popcount_and_le_right a (1#64 <<< i)
  have hone := popcount_one_shiftLeft hi
  rw [flipBit]
  omega

theorem parity_flipBit (a : Word) {i : Nat} (hi : i < 64) : parity (flipBit a i) = !parity a := by
  have hone : parity (1#64 <<< i) = true := by rw [parity_eq_true_iff, popcount_one_shiftLeft hi]
  rw [flipBit, parity_xor, hone, Bool.xor_true]

/-- Settles O12: the laws, each under its name; two flips are one flip after another. -/
theorem popcountLaws : Obligations.PopcountLaws := by
  refine ⟨popcount_xor_add_and, parity_xor, fun a => ?complement, popcount_eq_zero_iff,
    fun a i hi => ⟨parity_flipBit a hi, popcount_flipBit a hi⟩, fun a i j hi hj _ => ⟨?parity, ?count⟩, popcount_le_64⟩
  case complement => exact Nat.eq_sub_of_add_eq (popcount_not_add a)
  case parity => rw [parity_flipBit _ hj, parity_flipBit a hi, Bool.not_not]
  case count =>
    have hfirst := popcount_flipBit a hi
    have hsecond := popcount_flipBit (flipBit a i) hj
    omega

/-! ## Parity -/

/-- XORing the bits together keeps the count modulo 2. -/
theorem foldl_xor_getLsbD_eq (x : Word) (n : Nat) :
    (List.range n).foldl (fun b i => b ^^ x.getLsbD i) false = decide (countBelow x n % 2 = 1) := by
  induction n with
  | zero => rfl
  | succ n ih =>
    rw [List.range_succ, List.foldl_concat, ih, countBelow]
    cases x.getLsbD n
    case false => rw [Bool.xor_false, Bool.toNat_false, Nat.add_zero]
    case true =>
      rw [Bool.xor_true, Bool.toNat_true, ← decide_not, decide_eq_decide]
      omega

theorem parity_eq_decide (x : Word) : parity x = decide (popcount x % 2 = 1) := Bool.beq_eq_decide_eq _ _

/-- Settles O11: parity is the count modulo 2; the count is the sum of the bits, its port's bit 0 is its remainder, and the
XOR keeps that remainder bit by bit. -/
theorem parityIsTheXorOfAllBits : Obligations.ParityIsTheXorOfAllBits := by
  refine fun x => ⟨?sum, ?port, ?xor⟩
  case sum => rw [parity_eq_decide, popcount_eq_sum]
  case port => rw [parity_eq_decide, BitVec.getLsbD, toNat_popcount64, Nat.testBit_zero]
  case xor => rw [foldl_xor_getLsbD_eq, parity_eq_decide, popcount]

/-! ## The operation -/

/-- Settles O10: the result is the port zero extended, so its value is the count. -/
theorem popcountCountsSetBits : Obligations.PopcountCountsSetBits := by
  refine ⟨fun x s => ⟨zext64 (popcount64 x), rfl, ?_⟩, by decide, by decide, by decide⟩
  have hcount : (zext64 (popcount64 x)).toNat = popcount x := by rw [toNat_zext64 _ (by decide), toNat_popcount64]
  rw [hcount]
  exact ⟨popcount_eq_sum x, (toNat_popcount64 x).symm, (popcount_le_64 x).trans_lt (by decide), popcount_eq_64_iff x⟩

end Sys2Proof.Machine
end

section
/-! PROOFS. Family 41_bit_layout: the bits of `REPOS` and `UNREPOS` by position and by field, and their laws. -/

namespace Sys2Proof.Machine

/-! ## The masks -/

/-- The `i`-th position of R62's list is `DPOS(i)`. -/
theorem getElem?_payloadPositions {i j : Nat} (h : payloadPositions[i]? = some j) : i < 57 ∧ dpos i = j := by
  obtain ⟨hlen, hget, -⟩ := payloadPositions_enumerated
  have hi : i < 57 := hlen ▸ (List.getElem?_eq_some_iff.mp h).1
  exact ⟨hi, Option.some.inj ((hget i hi).symm.trans h)⟩

theorem getLsbD_payloadMask (i : Nat) : payloadMask.getLsbD i = decide (i < 57) :=
  Nat.testBit_two_pow_sub_one 57 i

theorem getLsbD_dataMask_dpos {i : Nat} (hi : i < 57) : dataMask.getLsbD (dpos i) = true := by
  rw [getLsbD_dataMask (dpos_lt_64 hi), decide_eq_true (dpos_not_parity hi)]

/-- `DATA_MASK` is 0 at the parity positions (R61). -/
theorem getLsbD_dataMask_parity {j : Nat} (hj : j ∈ parityPositions) : dataMask.getLsbD j = false := by
  revert j; decide

/-- The payload mask keeps a valid payload (R26). -/
theorem and_payloadMask_of_validPayload {p : Word} (h : validPayload p) : p &&& payloadMask = p := by
  apply BitVec.eq_of_toNat_eq
  calc (p &&& payloadMask).toNat
    _ = p.toNat % 2 ^ 57 := Nat.and_two_pow_sub_one_eq_mod p.toNat 57
    _ = p.toNat := Nat.mod_eq_of_lt h

/-- `DATA_MASK` keeps a word whose parity positions are 0. -/
theorem and_dataMask_of_and_parityMask {w : Word} (h : w &&& parityMask = 0#64) : w &&& dataMask = w := by
  have hzero := (and_parityMask_eq_zero_iff w).mp h
  refine eq_of_positions (fun i hi => ?payload) (fun j hj => ?parity)
  case payload => rw [BitVec.getLsbD_and, getLsbD_dataMask_dpos hi, Bool.and_true]
  case parity => rw [BitVec.getLsbD_and, hzero j hj, Bool.false_and]

/-! ## The laws of R125 to R127 -/

/-- `REPOS` leaves the parity positions 0 (R120). -/
theorem repos_and_parityMask (p : Word) : repos p &&& parityMask = 0#64 :=
  (and_parityMask_eq_zero_iff _).mpr fun _ hj => getLsbD_repos_parity p hj

theorem unrepos_repos (p : Word) : unrepos (repos p) = p &&& payloadMask := by
  apply BitVec.eq_of_getLsbD_eq
  intro i _
  rw [getLsbD_unrepos, BitVec.getLsbD_and, getLsbD_payloadMask]
  by_cases hi : i < 57
  · rw [getLsbD_repos_dpos p hi, Bool.and_comm]
  · rw [decide_eq_false hi, Bool.false_and, Bool.and_false]

theorem unrepos_repos_of_validPayload {p : Word} (h : validPayload p) : unrepos (repos p) = p := by
  rw [unrepos_repos, and_payloadMask_of_validPayload h]

theorem repos_unrepos (w : Word) : repos (unrepos w) = w &&& dataMask := by
  refine eq_of_positions (fun i hi => ?payload) (fun j hj => ?parity)
  case payload =>
    rw [getLsbD_repos_dpos _ hi, getLsbD_unrepos, BitVec.getLsbD_and, getLsbD_dataMask_dpos hi, decide_eq_true hi,
      Bool.true_and, Bool.and_true]
  case parity => rw [getLsbD_repos_parity _ hj, BitVec.getLsbD_and, getLsbD_dataMask_parity hj, Bool.and_false]

theorem repos_unrepos_of_and_parityMask {w : Word} (h : w &&& parityMask = 0#64) : repos (unrepos w) = w := by
  rw [repos_unrepos, and_dataMask_of_and_parityMask h]

/-- Bits 63:57 do not reach the codeword: going there and back and there again drops them (R121). -/
theorem repos_and_payloadMask (p : Word) : repos (p &&& payloadMask) = repos p := by
  rw [← unrepos_repos, repos_unrepos_of_and_parityMask (repos_and_parityMask p)]

/-- The parity positions do not reach the payload (R123). -/
theorem unrepos_and_dataMask (w : Word) : unrepos (w &&& dataMask) = unrepos w := by
  rw [← repos_unrepos, unrepos_repos_of_validPayload (validPayload_unrepos w)]

theorem repos_xor (a b : Word) : repos (a ^^^ b) = repos a ^^^ repos b := by
  refine eq_of_positions (fun i hi => ?payload) (fun j hj => ?parity)
  case payload => simp only [BitVec.getLsbD_xor, getLsbD_repos_dpos _ hi]
  case parity => simp only [BitVec.getLsbD_xor, getLsbD_repos_parity _ hj, Bool.xor_false]

theorem unrepos_xor (a b : Word) : unrepos (a ^^^ b) = unrepos a ^^^ unrepos b := by
  apply BitVec.eq_of_getLsbD_eq
  intro i _
  simp only [BitVec.getLsbD_xor, getLsbD_unrepos, Bool.and_xor_distrib_left]

/-- On payloads and on words with the parity positions 0, each of `REPOS` and `UNREPOS` undoes the other (R127). -/
theorem bijOn_repos : Set.BijOn repos {p | validPayload p} {w | w &&& parityMask = 0#64} :=
  Set.InvOn.bijOn (f' := unrepos)
    ⟨fun _ hp => unrepos_repos_of_validPayload hp, fun _ hw => repos_unrepos_of_and_parityMask hw⟩
    (fun p _ => repos_and_parityMask p) (fun w _ => validPayload_unrepos w)

/-- Settles O22: the round trip masks to the payload bits, and the mask keeps a valid payload. -/
theorem repositioningRoundTrip : Obligations.RepositioningRoundTrip :=
  fun _ => unrepos_repos_of_validPayload

/-- Settles O23: the laws, each under its name. -/
theorem repositioningIsALinearBijection : Obligations.RepositioningIsALinearBijection :=
  ⟨unrepos_repos, repos_unrepos, repos_xor, unrepos_xor, bijOn_repos,
    fun w hw => ⟨repos_unrepos_of_and_parityMask hw, validPayload_unrepos w⟩⟩

/-! ## The operations -/

/-- Settles O19: the response carries `REPOS` of the operand, which reads no bit above 56. -/
theorem outOfRangePayloadBitsAreDropped : Obligations.OutOfRangePayloadBitsAreDropped := by
  intro p s
  have hmask : repos (p &&& 0x01FFFFFFFFFFFFFF#64) = repos p := repos_and_payloadMask p
  rw [hmask]
  exact ⟨rfl, exec_of_answer rfl s⟩

/-- Settles O18: the result is `REPOS` of the operand, known at every position; the corner cases are evaluated. -/
theorem repositionScattersThePayload : Obligations.RepositionScattersThePayload := by
  refine ⟨fun p s => ⟨repos p, exec_of_answer rfl s, fun i j h => ?bits, fun j => getLsbD_repos_parity p,
    repos_and_parityMask p, fun _ => rfl⟩, by decide, by decide, by decide, by decide, by decide⟩
  case bits =>
    obtain ⟨hi, rfl⟩ := getElem?_payloadPositions h
    exact getLsbD_repos_dpos p hi

/-- Settles O21: the result is `UNREPOS` of the operand, known bit by bit; the corner cases are evaluated. -/
theorem unrepositionGathersThePayload : Obligations.UnrepositionGathersThePayload := by
  refine ⟨fun w s => ⟨unrepos w, exec_of_answer rfl s, fun i j h => ?bits, validPayload_unrepos w,
    (unrepos_and_dataMask w).symm, fun _ => rfl⟩, by decide, by decide, by decide, by decide⟩
  case bits =>
    obtain ⟨hi, rfl⟩ := getElem?_payloadPositions h
    rw [getLsbD_unrepos, decide_eq_true hi, Bool.true_and]

/-! ## The field forms -/

/-- A field moved from bit `b` to bit `a` and one bit longer is the field and that bit (R10). -/
theorem shiftLeft_extractLsb'_succ (v : Word) (a b n : Nat) :
    zext64 (v.extractLsb' b (n + 1)) <<< a = zext64 (v.extractLsb' b n) <<< a ||| bitAt (v.getLsbD (b + n)) (a + n) := by
  apply BitVec.eq_of_getLsbD_eq
  intro j hj
  simp only [zext64, BitVec.getLsbD_or, BitVec.getLsbD_shiftLeft, BitVec.getLsbD_setWidth, BitVec.getLsbD_extractLsb',
    getLsbD_bitAt]
  by_cases ha : j < a
  · have hne : j ≠ a + n := by omega
    simp [ha, hne]
  · obtain ⟨k, rfl⟩ := Nat.exists_eq_add_of_le (Nat.not_lt.mp ha)
    by_cases hk : k = n
    · subst hk
      have hword : k < 64 := by omega
      simp [hj, hword]
    · have hlt : k < n + 1 ↔ k < n := by omega
      simp [hk, hlt]

/-- Where `DPOS` runs on from `a` without a gap, `REPOS` moves the field as a whole (R120). -/
theorem scatterBelow_add (p : Word) {a b n : Nat} (h : ∀ j < n, dpos (b + j) = a + j) :
    scatterBelow p (b + n) = scatterBelow p b ||| zext64 (p.extractLsb' b n) <<< a := by
  induction n with
  | zero => simp [zext64]
  | succ n ih =>
    rw [← Nat.add_assoc, scatterBelow, ih fun j hj => h j (by omega), h n (by omega), BitVec.or_assoc,
      ← shiftLeft_extractLsb'_succ]

/-- Where `DPOS` runs on from `a` without a gap, `UNREPOS` moves the field as a whole (R123). -/
theorem gatherBelow_add (w : Word) {a b n : Nat} (h : ∀ j < n, dpos (b + j) = a + j) :
    gatherBelow w (b + n) = gatherBelow w b ||| zext64 (w.extractLsb' a n) <<< b := by
  induction n with
  | zero => simp [zext64]
  | succ n ih =>
    rw [← Nat.add_assoc, gatherBelow, ih fun j hj => h j (by omega), h n (by omega), BitVec.or_assoc,
      ← shiftLeft_extractLsb'_succ]

/-- Settles O20: `DPOS` has five runs without a gap, at payload bits 0, 1, 4, 11 and 26, and each moves as a field. -/
theorem repositioningByFields : Obligations.RepositioningByFields := by
  have h0 : ∀ j < 1, dpos (0 + j) = 3 + j := by decide
  have h1 : ∀ j < 3, dpos (1 + j) = 5 + j := by decide
  have h4 : ∀ j < 7, dpos (4 + j) = 9 + j := by decide
  have h11 : ∀ j < 15, dpos (11 + j) = 17 + j := by decide
  have h26 : ∀ j < 31, dpos (26 + j) = 33 + j := by decide
  refine ⟨fun p => ?repos, fun w => ?unrepos⟩
  case repos =>
    rw [repos, scatterBelow_add p h26, scatterBelow_add p h11, scatterBelow_add p h4, scatterBelow_add p h1,
      scatterBelow_add p h0, scatterBelow, BitVec.zero_or]
  case unrepos =>
    rw [unrepos, gatherBelow_add w h26, gatherBelow_add w h11, gatherBelow_add w h4, gatherBelow_add w h1,
      gatherBelow_add w h0, gatherBelow, BitVec.zero_or, BitVec.shiftLeft_zero]

end Sys2Proof.Machine
end

section
/-! PROOFS. Family 42_parity_encoder: the group parities, what `SETPAR` writes, and the encoder as a linear map. -/

namespace Sys2Proof.Machine

/-! ## The parity groups -/

/-- Membership in a parity group is a bit of the index (R140). -/
theorem getLsbD_groupMask (k : Fin 6) : ∀ {i : Nat}, i < 64 → (groupMask k).getLsbD i = i.testBit k.val := by
  revert k; decide

/-- Settles O15: membership by the index, the sizes by evaluation, the values by definition. -/
theorem parityGroupMasks : Obligations.ParityGroupMasks :=
  ⟨fun k _ => getLsbD_groupMask k, by decide, rfl, rfl, rfl, rfl, rfl, rfl⟩

theorem two_pow_lt_64 (j : Fin 6) : 2 ^ j.val < 64 := Nat.pow_lt_pow_right (n := 6) (by decide) j.isLt

/-- Position `2^j` is in group `j` alone (R142). -/
theorem getLsbD_groupMask_two_pow (j k : Fin 6) : (groupMask k).getLsbD (2 ^ j.val) = decide (j = k) := by
  rw [getLsbD_groupMask k (two_pow_lt_64 j), Nat.testBit_two_pow, decide_eq_decide, Fin.ext_iff]

/-- Position 0 is in no group (R142). -/
theorem getLsbD_groupMask_zero (k : Fin 6) : (groupMask k).getLsbD 0 = false := by
  rw [getLsbD_groupMask k (by decide), Nat.zero_testBit]

/-- An index that is neither 0 nor a power of two has two bits set (R142). -/
theorem exists_two_groups : ∀ j < 64, j ∉ parityPositions →
    ∃ k l : Fin 6, k ≠ l ∧ (groupMask k).getLsbD j = true ∧ (groupMask l).getLsbD j = true := by
  decide

/-- The check positions are position 0 and the positions `2^k` (R61). -/
theorem parityPositions_cases : ∀ j ∈ parityPositions, j = 0 ∨ ∃ k : Fin 6, j = 2 ^ k.val := by
  decide

/-- The bits a group mask keeps are counted by the positions of the group. -/
theorem popcount_and_groupMask (w : Word) (k : Fin 6) : popcount (w &&& groupMask k) =
    ∑ i ∈ (Finset.range 64).filter (fun i => i.testBit k.val = true), (w.getLsbD i).toNat := by
  rw [popcount_eq_sum, Finset.sum_filter]
  refine Finset.sum_congr rfl fun i hi => ?_
  rw [BitVec.getLsbD_and, getLsbD_groupMask k (Finset.mem_range.mp hi)]
  cases i.testBit k.val <;> simp

/-- Settles O24: bit `k` of `GP` is by definition the parity under the mask, and the mask keeps the bits of the group. -/
theorem groupParities : Obligations.GroupParities := by
  refine fun w k => ⟨getLsbD_gp w k, getLsbD_gp w k, ?_⟩
  rw [getLsbD_gp, groupParity, parity_eq_decide, popcount_and_groupMask]

/-! ## Parity under a mask -/

theorem parity_xor_and (a b m : Word) : parity ((a ^^^ b) &&& m) = (parity (a &&& m) ^^ parity (b &&& m)) := by
  have hdistrib : (a ^^^ b) &&& m = (a &&& m) ^^^ (b &&& m) := by
    refine BitVec.eq_of_getLsbD_eq fun j _ => ?_
    simp only [BitVec.getLsbD_and, BitVec.getLsbD_xor, Bool.and_xor_distrib_right]
  rw [hdistrib, parity_xor]

theorem parity_and_xor (w m n : Word) : parity (w &&& (m ^^^ n)) = (parity (w &&& m) ^^ parity (w &&& n)) := by
  rw [BitVec.and_comm, parity_xor_and, BitVec.and_comm m, BitVec.and_comm n]

theorem parity_bitAt (b : Bool) {i : Nat} (hi : i < 64) : parity (bitAt b i) = b := by
  cases b
  case false => rw [bitAt, if_neg Bool.false_ne_true]; decide
  case true => rw [bitAt, if_pos rfl, parity_eq_true_iff, popcount_one_shiftLeft hi]

theorem parity_bitAt_and (b : Bool) {i : Nat} (hi : i < 64) (m : Word) :
    parity (bitAt b i &&& m) = (b && m.getLsbD i) := by
  have hbit : bitAt b i &&& m = bitAt (b && m.getLsbD i) i := by
    refine BitVec.eq_of_getLsbD_eq fun j _ => ?_
    simp only [BitVec.getLsbD_and, getLsbD_bitAt]
    by_cases h : j = i
    · subst h; simp [hi]
    · simp [h]
  rw [hbit, parity_bitAt _ hi]

/-- Writing a bit flips it where the bit held another value. -/
theorem setBit_eq_xor (v : Word) {i : Nat} (hi : i < 64) (b : Bool) :
    setBit v i b = v ^^^ bitAt (b ^^ v.getLsbD i) i := by
  refine BitVec.eq_of_getLsbD_eq fun j hj => ?_
  rw [getLsbD_setBit _ _ _ _ hi, BitVec.getLsbD_xor, getLsbD_bitAt]
  by_cases h : j = i
  · subst h; cases b <;> simp [hi]
  · simp [h]

/-- A write reaches a parity exactly where its position is under the mask and its bit is new. -/
theorem parity_setBit_and (v : Word) {i : Nat} (hi : i < 64) (b : Bool) (m : Word) :
    parity (setBit v i b &&& m) = (parity (v &&& m) ^^ ((b ^^ v.getLsbD i) && m.getLsbD i)) := by
  rw [setBit_eq_xor v hi, parity_xor_and, parity_bitAt_and _ hi]

theorem parity_setBit (v : Word) {i : Nat} (hi : i < 64) (b : Bool) :
    parity (setBit v i b) = (parity v ^^ (b ^^ v.getLsbD i)) := by
  rw [setBit_eq_xor v hi, parity_xor, parity_bitAt _ hi]

/-- A write outside a group leaves its parity. -/
theorem groupParity_setBit_of_not_mem (w : Word) {i : Nat} (hi : i < 64) (b : Bool) {k : Fin 6}
    (hk : (groupMask k).getLsbD i = false) : groupParity (setBit w i b) k = groupParity w k := by
  rw [groupParity, parity_setBit_and w hi, hk, Bool.and_false, Bool.xor_false, groupParity]

/-- A write at position 0 leaves every group's parity. -/
theorem gp_setBit_zero (w : Word) (b : Bool) : gp (setBit w 0 b) = gp w :=
  eq_of_groups fun k => by
    rw [getLsbD_gp, getLsbD_gp, groupParity_setBit_of_not_mem w (by decide) b (getLsbD_groupMask_zero k)]

/-- Settles O25: a write reaches only the parities of the groups its position is in. -/
theorem checkPositionsAreIndependent : Obligations.CheckPositionsAreIndependent := by
  refine ⟨getLsbD_groupMask_two_pow, getLsbD_groupMask_zero, exists_two_groups, fun w b j k hjk => ?_, gp_setBit_zero⟩
  have hk : (groupMask k).getLsbD (2 ^ j.val) = false := (getLsbD_groupMask_two_pow j k).trans (decide_eq_false hjk)
  rw [getLsbD_gp, getLsbD_gp, groupParity_setBit_of_not_mem w (two_pow_lt_64 j) b hk]

/-! ## What `SETPAR` writes -/

/-- The positional writes still to come find what the word held before. -/
theorem getLsbD_writePositional_next (g : BitVec 6) (t : Word) {n : Nat} (hn : n ≤ 6) :
    (writePositional g t n).getLsbD (2 ^ n) = t.getLsbD (2 ^ n) := by
  have hnone : ¬ ∃ k < n, 2 ^ n = 2 ^ k := fun ⟨k, hk, hpow⟩ => hk.ne' (Nat.pow_right_injective le_rfl hpow)
  rw [getLsbD_writePositional g t n _ hn, dif_neg hnone]

/-- On a word with its check positions 0, each positional write adds its bit to the parities it is under. -/
theorem parity_writePositional_and {w : Word} (hw : w &&& parityMask = 0#64) (g : BitVec 6) (m : Word) (n : Nat)
    (hn : n ≤ 6) : parity (writePositional g w n &&& m) =
      (parity (w &&& m) ^^ (List.range n).foldl (fun b k => b ^^ (g.getLsbD k && m.getLsbD (2 ^ k))) false) := by
  induction n with
  | zero => exact (Bool.xor_false _).symm
  | succ n ih =>
    have hzero : w.getLsbD (2 ^ n) = false := by
      have hmem : ∀ n < 6, 2 ^ n ∈ parityPositions := by decide
      exact (and_parityMask_eq_zero_iff w).mp hw _ (hmem n hn)
    rw [writePositional, parity_setBit_and _ (two_pow_lt_64 ⟨n, hn⟩), ih (by omega),
      getLsbD_writePositional_next g w (by omega), hzero, Bool.xor_false, List.range_succ, List.foldl_concat,
      Bool.xor_assoc]

/-- Of the six positional bits, group `k` holds bit `k` alone (R142). -/
theorem foldl_xor_groupMask (g : BitVec 6) (k : Fin 6) :
    (List.range 6).foldl (fun b j => b ^^ (g.getLsbD j && (groupMask k).getLsbD (2 ^ j))) false = g.getLsbD k.val := by
  fin_cases k <;> simp [List.range_succ, groupMask, groupMasks]

/-- The whole word holds all six positional bits. -/
theorem foldl_xor_allOnes (g : BitVec 6) :
    (List.range 6).foldl (fun b k => b ^^ (g.getLsbD k && (BitVec.allOnes 64).getLsbD (2 ^ k))) false =
      (List.range 6).foldl (fun b k => b ^^ g.getLsbD k) false := by
  simp [List.range_succ]

/-- The extended parity bit in its parallel form (R144). -/
theorem getLsbD_setpar_zero_eq_xor {w : Word} (hw : w &&& parityMask = 0#64) :
    (setpar w).getLsbD 0 = (parity w ^^ (List.range 6).foldl (fun b k => b ^^ (gp w).getLsbD k) false) := by
  have hall := parity_writePositional_and hw (gp w) (BitVec.allOnes 64) 6 le_rfl
  rwa [BitVec.and_allOnes, BitVec.and_allOnes, foldl_xor_allOnes, ← getLsbD_setpar_extended] at hall

/-- Each group holds its positional bit, which makes its parity even (R149). -/
theorem gp_setpar {w : Word} (hw : w &&& parityMask = 0#64) : gp (setpar w) = 0#6 := by
  refine eq_of_groups fun k => ?_
  have hk := parity_writePositional_and hw (gp w) (groupMask k) 6 le_rfl
  rw [foldl_xor_groupMask, getLsbD_gp, groupParity, Bool.xor_self] at hk
  rw [setpar, gp_setBit_zero, getLsbD_gp, groupParity, hk, BitVec.getLsbD_zero]

/-- The extended bit makes the parity of the whole word even (R143). -/
theorem parity_setpar {w : Word} (hw : w.getLsbD 0 = false) : parity (setpar w) = false := by
  have hnone : ¬ ∃ k < 6, 0 = 2 ^ k := fun ⟨k, _, hk⟩ => (Nat.two_pow_pos k).ne hk
  rw [setpar, parity_setBit _ (by decide), getLsbD_writePositional _ _ _ _ le_rfl, dif_neg hnone, hw, Bool.xor_false,
    Bool.xor_self]

theorem getLsbD_zero_of_and_parityMask {w : Word} (hw : w &&& parityMask = 0#64) : w.getLsbD 0 = false :=
  (and_parityMask_eq_zero_iff w).mp hw 0 (by decide)

/-! ## The operations -/

/-- `setParity` on a word with its check positions 0 answers `SETPAR` (R146). -/
theorem answer_setParity {w : Word} (hw : w &&& parityMask = 0#64) :
    answer (.setParity w) = some { result := setpar w, ok := true } :=
  if_pos ((parityPositionsZero_iff w).mpr hw)

/-- `setParity` on another word has no answer (R145). -/
theorem answer_setParity_eq_none {w : Word} (hw : w &&& parityMask ≠ 0#64) : answer (.setParity w) = none :=
  if_neg fun h => hw ((parityPositionsZero_iff w).mp h)

/-- Settles O26: the bits of `SETPAR`, by position. -/
theorem setParityWritesTheCheckBits : Obligations.SetParityWritesTheCheckBits := fun w s hw =>
  have hzero := getLsbD_zero_of_and_parityMask hw
  ⟨setpar w, exec_of_answer (answer_setParity hw) s, fun _ => getLsbD_setpar_payload w, getLsbD_setpar_positional w,
    getLsbD_setpar_zero hzero, parity_setpar hzero⟩

/-- Settles O27: the answer on both sides of the precondition; the corner cases are evaluated. -/
theorem setParityPrecondition : Obligations.SetParityPrecondition := by
  refine ⟨fun w s hw => ⟨?refused, answer_setParity_eq_none hw⟩, fun w s hw => exec_of_answer (answer_setParity hw) s,
    repos_and_parityMask, by decide, by decide, by decide, by decide⟩
  case refused => rw [exec_eq_answer, answer_setParity_eq_none hw]

/-- Settles O28: the parallel form; the other order fails at payload position 7, which is in three groups: the three ones
written after the extended bit make the parity of the word odd. -/
theorem extendedParityComesLast : Obligations.ExtendedParityComesLast := by
  have hword : 0x80#64 &&& parityMask = 0#64 := by decide
  have hgp : gp 0x80#64 = 0b000111#6 := by decide
  have hfirst : setBit 0x80#64 0 (parity 0x80#64) = 0x81#64 := by decide
  have hwrites : writePositional 0b000111#6 0x81#64 6 = 0x97#64 := by decide
  have hodd : parity 0x97#64 = true := by decide
  refine ⟨fun w hw => getLsbD_setpar_zero_eq_xor hw, 0x80#64, hword,
    ⟨gp_setpar hword, parity_setpar (getLsbD_zero_of_and_parityMask hword)⟩, fun hother => ?_⟩
  obtain ⟨-, heven⟩ := hother
  rw [hgp, hfirst, hwrites, hodd] at heven
  exact Bool.noConfusion heven

theorem enc_and_payloadMask (p : Word) : enc (p &&& payloadMask) = enc p := by
  rw [enc, enc, repos_and_payloadMask]

/-- Settles O29: the answer is `SETPAR(REPOS(p))` by definition, and `REPOS` drops bits 63:57. -/
theorem encodeSetsParityOfTheScatteredPayload : Obligations.EncodeSetsParityOfTheScatteredPayload :=
  ⟨fun p s => ⟨exec_of_answer rfl s, (enc_and_payloadMask p).symm, rfl⟩, by decide, by decide, by decide, by decide⟩

/-- Settles O30: `REPOS` leaves the check positions 0, so the check bits make every parity even. -/
theorem encodedWordsHaveEvenParity : Obligations.EncodedWordsHaveEvenParity := fun p =>
  have hzero := repos_and_parityMask p
  have hparity : parity (enc p) = false := parity_setpar (getLsbD_zero_of_and_parityMask hzero)
  ⟨gp_setpar hzero, hparity, (parity_eq_false_iff _).mp hparity⟩

/-! ## The check bits as parities of the payload -/

/-- The positions the extended bit of `SETPAR` reads (R144): those in an even number of groups. -/
def extendedMask : Word :=
  BitVec.allOnes 64 ^^^ groupMask 0 ^^^ groupMask 1 ^^^ groupMask 2 ^^^ groupMask 3 ^^^ groupMask 4 ^^^ groupMask 5

/-- The parallel form of the extended bit as one parity. -/
theorem getLsbD_setpar_zero_eq_parity {w : Word} (hw : w &&& parityMask = 0#64) :
    (setpar w).getLsbD 0 = parity (w &&& extendedMask) := by
  have hfold : (List.range 6).foldl (fun b k => b ^^ (gp w).getLsbD k) false =
      (false ^^ groupParity w 0 ^^ groupParity w 1 ^^ groupParity w 2 ^^ groupParity w 3 ^^ groupParity w 4 ^^
        groupParity w 5) := by
    simp only [← getLsbD_gp]; rfl
  rw [getLsbD_setpar_zero_eq_xor hw, hfold, extendedMask]
  simp only [parity_and_xor, BitVec.and_allOnes, groupParity, Bool.false_xor, Bool.xor_assoc]

/-- `REPOS` and `UNREPOS` are adjoint: counting the scattered payload under a mask is counting the payload under the
gathered mask. -/
theorem popcount_repos_and (p m : Word) : popcount (repos p &&& m) = popcount (p &&& unrepos m) := by
  have hscatter : ∑ i ∈ Finset.range 57, ((p &&& unrepos m).getLsbD i).toNat =
      ∑ j ∈ Finset.range 64, ((repos p &&& m).getLsbD j).toNat := by
    refine Finset.sum_of_injOn dpos (fun _ _ _ _ => dpos_injective)
      (fun i hi => Finset.mem_coe.mpr (Finset.mem_range.mpr (dpos_lt_64 (Finset.mem_range.mp hi))))
      (fun j hj hout => ?check) (fun i hi => ?payload)
    case check =>
      have hparity : j ∈ parityPositions := (position_cases (Finset.mem_range.mp hj)).resolve_right
        fun ⟨i, hi, hij⟩ => hout ⟨i, Finset.mem_coe.mpr (Finset.mem_range.mpr hi), hij⟩
      rw [BitVec.getLsbD_and, getLsbD_repos_parity p hparity, Bool.false_and, Bool.toNat_false]
    case payload =>
      have hi' := Finset.mem_range.mp hi
      rw [BitVec.getLsbD_and, BitVec.getLsbD_and, getLsbD_repos_dpos p hi', getLsbD_unrepos, decide_eq_true hi',
        Bool.true_and]
  have hrange : ∑ i ∈ Finset.range 57, ((p &&& unrepos m).getLsbD i).toNat =
      ∑ i ∈ Finset.range 64, ((p &&& unrepos m).getLsbD i).toNat := by
    refine Finset.sum_subset (Finset.range_mono (by decide)) fun i _ hi => ?_
    rw [BitVec.getLsbD_and, getLsbD_unrepos, decide_eq_false (mt Finset.mem_range.mpr hi), Bool.false_and,
      Bool.and_false, Bool.toNat_false]
  rw [popcount_eq_sum, popcount_eq_sum, ← hscatter, hrange]

theorem parity_repos_and (p m : Word) : parity (repos p &&& m) = parity (p &&& unrepos m) := by
  rw [parity, parity, popcount_repos_and]

/-- A positional check bit of a codeword as a parity of its payload (R150). -/
theorem getLsbD_enc_two_pow (p : Word) (k : Fin 6) : (enc p).getLsbD (2 ^ k.val) = parity (p &&& unrepos (groupMask k)) := by
  rw [enc, getLsbD_setpar_positional, groupParity, parity_repos_and]

/-- The extended check bit of a codeword as a parity of its payload (R150). -/
theorem getLsbD_enc_zero (p : Word) : (enc p).getLsbD 0 = parity (p &&& unrepos extendedMask) := by
  rw [enc, getLsbD_setpar_zero_eq_parity (repos_and_parityMask p), parity_repos_and]

/-- Settles O32: the seven masks are gathered and evaluated. -/
theorem payloadSideCheckEquations : Obligations.PayloadSideCheckEquations := by
  have h0 : unrepos (groupMask 0) = 0x0155555556AAAD5B#64 := by decide
  have h1 : unrepos (groupMask 1) = 0x019999999B33366D#64 := by decide
  have h2 : unrepos (groupMask 2) = 0x01E1E1E1E3C3C78E#64 := by decide
  have h3 : unrepos (groupMask 3) = 0x01FE01FE03FC07F0#64 := by decide
  have h4 : unrepos (groupMask 4) = 0x01FFFE0003FFF800#64 := by decide
  have h5 : unrepos (groupMask 5) = 0x01FFFFFFFC000000#64 := by decide
  have hx : unrepos extendedMask = 0x012CD2D32DA65CB7#64 := by decide
  refine ⟨fun p => ?_, h0, h1, h2, h3, h4, h5⟩
  rw [← h0, ← h1, ← h2, ← h3, ← h4, ← h5, ← hx]
  exact ⟨getLsbD_enc_two_pow p 0, getLsbD_enc_two_pow p 1, getLsbD_enc_two_pow p 2, getLsbD_enc_two_pow p 3,
    getLsbD_enc_two_pow p 4, getLsbD_enc_two_pow p 5, getLsbD_enc_zero p⟩

/-! ## The encoder as a linear map -/

/-- Every bit of a codeword is a payload bit or a parity of the payload, so the encoder is linear (R151). -/
theorem enc_xor (a b : Word) : enc (a ^^^ b) = enc a ^^^ enc b := by
  refine eq_of_positions (fun i hi => ?payload) (fun j hj => ?check)
  case payload => simp only [BitVec.getLsbD_xor, getLsbD_enc_dpos _ hi]
  case check =>
    rcases parityPositions_cases j hj with rfl | ⟨k, rfl⟩
    · simp only [BitVec.getLsbD_xor, getLsbD_enc_zero, parity_xor_and]
    · simp only [BitVec.getLsbD_xor, getLsbD_enc_two_pow, parity_xor_and]

theorem enc_zero : enc 0#64 = 0#64 := by decide

/-- `UNREPOS` reads the payload positions, which `SETPAR` leaves alone. -/
theorem unrepos_setpar (w : Word) : unrepos (setpar w) = unrepos w := by
  refine BitVec.eq_of_getLsbD_eq fun i _ => ?_
  rw [getLsbD_unrepos, getLsbD_unrepos]
  by_cases hi : i < 57
  · rw [getLsbD_setpar_payload w (dpos_not_parity hi)]
  · rw [decide_eq_false hi, Bool.false_and, Bool.false_and]

/-- The encoder keeps the payload (R149). -/
theorem unrepos_enc (p : Word) : unrepos (enc p) = p &&& payloadMask := by
  rw [enc, unrepos_setpar, unrepos_repos]

theorem injOn_enc : Set.InjOn enc {p | validPayload p} := by
  intro a ha b hb h
  calc a
    _ = unrepos (enc a) := by rw [unrepos_enc, and_payloadMask_of_validPayload ha]
    _ = unrepos (enc b) := by rw [h]
    _ = b := by rw [unrepos_enc, and_payloadMask_of_validPayload hb]

/-- A word is put together from its bits: XORing `1 << i` over its set bits below `n` gives its low `n` bits. -/
theorem getLsbD_foldl_xor_one_shiftLeft (p : Word) (n : Nat) {j : Nat} (hj : j < 64) :
    ((List.range n).foldl (fun c i => if p.getLsbD i then c ^^^ 1#64 <<< i else c) 0#64).getLsbD j =
      (decide (j < n) && p.getLsbD j) := by
  induction n with
  | zero => rw [List.range_zero, List.foldl_nil, BitVec.getLsbD_zero, decide_eq_false j.not_lt_zero, Bool.false_and]
  | succ n ih =>
    have hbit (c : Word) (b : Bool) : (if b then c ^^^ 1#64 <<< n else c) = c ^^^ bitAt b n := by
      cases b <;> simp [bitAt]
    rw [List.range_succ, List.foldl_concat, hbit, BitVec.getLsbD_xor, ih, getLsbD_bitAt]
    by_cases h : j = n
    · subst h; simp [hj]
    · have hlt : j < n + 1 ↔ j < n := by omega
      simp [h, hlt]

theorem foldl_xor_one_shiftLeft (p : Word) :
    (List.range 57).foldl (fun c i => if p.getLsbD i then c ^^^ 1#64 <<< i else c) 0#64 = p &&& payloadMask := by
  refine BitVec.eq_of_getLsbD_eq fun j hj => ?_
  rw [getLsbD_foldl_xor_one_shiftLeft p 57 hj, BitVec.getLsbD_and, getLsbD_payloadMask, Bool.and_comm]

/-- A codeword is the XOR of the codewords of its payload's bits (R151). -/
theorem enc_eq_foldl (p : Word) : enc p =
    (List.range 57).foldl (fun c i => if p.getLsbD i then c ^^^ enc (1#64 <<< i) else c) 0#64 := by
  have hom (c : Word) (i : Nat) : (if p.getLsbD i then enc c ^^^ enc (1#64 <<< i) else enc c) =
      enc (if p.getLsbD i then c ^^^ 1#64 <<< i else c) := by
    rw [apply_ite enc, enc_xor]
  calc enc p
    _ = enc ((List.range 57).foldl (fun c i => if p.getLsbD i then c ^^^ 1#64 <<< i else c) 0#64) := by
      rw [foldl_xor_one_shiftLeft, enc_and_payloadMask]
    _ = (List.range 57).foldl (fun c i => if p.getLsbD i then c ^^^ enc (1#64 <<< i) else c) (enc 0#64) :=
      (List.foldl_hom enc hom).symm
    _ = (List.range 57).foldl (fun c i => if p.getLsbD i then c ^^^ enc (1#64 <<< i) else c) 0#64 := by
      rw [enc_zero]

/-- Settles O31: the laws, each under its name; the codeword of the largest payload is evaluated. -/
theorem encoderIsLinearAndInjective : Obligations.EncoderIsLinearAndInjective :=
  ⟨unrepos_enc, enc_xor, enc_zero, by decide, enc_eq_foldl, injOn_enc⟩

/-! ## The generator table -/

/-- `REPOS` of a single payload bit is the single bit at its position. -/
theorem repos_one_shiftLeft {i : Nat} (hi : i < 57) : repos (1#64 <<< i) = bitAt true (dpos i) := by
  refine eq_of_positions (fun l hl => ?payload) (fun j hj => ?check)
  case payload =>
    have hpos : dpos l = dpos i ↔ l = i := ⟨dpos_injective, congrArg dpos⟩
    have hword : l < 64 := by omega
    rw [getLsbD_repos_dpos _ hl, getLsbD_one_shiftLeft, getLsbD_bitAt]
    simp [hpos, hword, dpos_lt_64 hl]
  case check =>
    have hne : j ≠ dpos i := fun h => dpos_not_parity hi (h ▸ hj)
    rw [getLsbD_repos_parity _ hj, getLsbD_bitAt, decide_eq_false hne, Bool.and_false, Bool.false_and]

/-- The extended bit reads the positions whose index has an even number of ones. -/
theorem getLsbD_extendedMask : ∀ j < 64,
    extendedMask.getLsbD j = decide ((1 + popcount (BitVec.ofNat 64 j)) % 2 = 1) := by
  decide

/-- Settles O33: the parity of a single bit under a mask is the mask's bit there; the table's rows are evaluated. -/
theorem generatorTable : Obligations.GeneratorTable := by
  refine ⟨fun i hi => ⟨fun j hj hp => ?payload, fun k => ?positional, ?extended⟩,
    by decide, by decide, by decide, by decide, by decide, by decide, by decide⟩
  case payload =>
    rw [enc, getLsbD_setpar_payload _ hp, repos_one_shiftLeft hi, getLsbD_bitAt, decide_eq_true hj, Bool.true_and,
      Bool.and_true]
  case positional =>
    rw [enc, getLsbD_setpar_positional, groupParity, repos_one_shiftLeft hi, parity_bitAt_and _ (dpos_lt_64 hi),
      Bool.true_and, getLsbD_groupMask k (dpos_lt_64 hi)]
  case extended =>
    rw [enc, getLsbD_setpar_zero_eq_parity (repos_and_parityMask _), repos_one_shiftLeft hi,
      parity_bitAt_and _ (dpos_lt_64 hi), Bool.true_and, getLsbD_extendedMask _ (dpos_lt_64 hi)]

end Sys2Proof.Machine
end

section
/-! PROOFS. Family 43_syndrome_decoder: the laws of the syndrome, the distance of the code, and what the decoder answers to a
codeword with errors. -/

namespace Sys2Proof.Machine

/-! ## The syndrome -/

@[simp] theorem getLsbD_syndrome (w : Word) (k : Fin 6) : (syndrome w).getLsbD k.val = groupParity w k :=
  getLsbD_gp w k

theorem syndrome_xor (a b : Word) : syndrome (a ^^^ b) = syndrome a ^^^ syndrome b := by
  refine eq_of_groups fun k => ?_
  rw [BitVec.getLsbD_xor, getLsbD_syndrome, getLsbD_syndrome, getLsbD_syndrome]
  exact parity_xor_and a b (groupMask k)

/-- Position `p` is in group `k` exactly where bit `k` of `p` is 1. -/
theorem syndrome_one_shiftLeft {p : Nat} (hp : p < 64) : syndrome (1#64 <<< p) = BitVec.ofNat 6 p := by
  refine eq_of_groups fun k => ?_
  calc (syndrome (1#64 <<< p)).getLsbD k.val
    _ = parity (bitAt true p &&& groupMask k) := getLsbD_syndrome _ k
    _ = p.testBit k.val := by rw [parity_bitAt_and true hp, Bool.true_and, getLsbD_groupMask k hp]
    _ = (BitVec.ofNat 6 p).getLsbD k.val := by rw [BitVec.getLsbD_ofNat, decide_eq_true k.isLt, Bool.true_and]

theorem syndrome_flipBit (w : Word) {p : Nat} (hp : p < 64) : syndrome (flipBit w p) = syndrome w ^^^ BitVec.ofNat 6 p := by
  rw [flipBit, syndrome_xor, syndrome_one_shiftLeft hp]

/-- Two flipped bits leave the XOR of their positions as the syndrome (R172). -/
theorem toNat_syndrome_flipBit_flipBit {c : Word} (hc : syndrome c = 0#6) {p q : Nat} (hp : p < 64) (hq : q < 64) :
    (syndrome (flipBit (flipBit c p) q)).toNat = p ^^^ q := by
  rw [syndrome_flipBit _ hq, syndrome_flipBit _ hp, hc, BitVec.zero_xor, BitVec.toNat_xor, BitVec.toNat_ofNat,
    BitVec.toNat_ofNat, Nat.mod_eq_of_lt hp, Nat.mod_eq_of_lt hq]

/-- Two flipped bits go unseen only where the second undoes the first. -/
theorem syndrome_flipBit_flipBit_eq_zero_iff {c : Word} (hc : syndrome c = 0#6) {p q : Nat} (hp : p < 64) (hq : q < 64) :
    syndrome (flipBit (flipBit c p) q) = 0#6 ↔ p = q := by
  rw [← BitVec.toNat_inj, toNat_syndrome_flipBit_flipBit hc hp hq]
  exact Nat.xor_eq_zero_iff

/-- A 6-bit value is the sum of its bits' weights. -/
theorem toNat_eq_sum_bits : ∀ g : BitVec 6, g.toNat = ∑ k : Fin 6, (g.getLsbD k.val).toNat * 2 ^ k.val := by
  decide

/-! ## Valid codewords -/

/-- A valid codeword is invisible to the checks: only the error pattern shows (R172). -/
theorem syndrome_xor_of_validCodeword {c : Word} (hc : validCodeword c) (e : Word) : syndrome (c ^^^ e) = syndrome e := by
  rw [syndrome_xor, hc.1, BitVec.zero_xor]

theorem parity_xor_of_validCodeword {c : Word} (hc : validCodeword c) (e : Word) : parity (c ^^^ e) = parity e := by
  rw [parity_xor, hc.2, Bool.false_xor]

theorem validCodeword_xor_iff {c : Word} (hc : validCodeword c) (e : Word) :
    validCodeword (c ^^^ e) ↔ validCodeword e := by
  rw [validCodeword, syndrome_xor_of_validCodeword hc, parity_xor_of_validCodeword hc, validCodeword]

theorem validCodeword_enc (p : Word) : validCodeword (enc p) :=
  have hzero := repos_and_parityMask p
  ⟨gp_setpar hzero, parity_setpar (getLsbD_zero_of_and_parityMask hzero)⟩

theorem validCodeword_zero : validCodeword 0#64 := by
  have h := validCodeword_enc 0#64
  rwa [enc_zero] at h

/-- A word with at most one 1, at position `i`, has the bit there as its parity. -/
theorem parity_of_single_bit {v : Word} {i : Nat} (hi : i < 64) (h : ∀ j < 64, j ≠ i → v.getLsbD j = false) :
    parity v = v.getLsbD i := by
  have hv : v = bitAt (v.getLsbD i) i := by
    refine BitVec.eq_of_getLsbD_eq fun j hj => ?_
    rw [getLsbD_bitAt, decide_eq_true hj, Bool.and_true]
    by_cases hji : j = i
    · subst hji; simp
    · rw [h j hj hji, decide_eq_false hji, Bool.and_false]
  calc parity v
    _ = parity (bitAt (v.getLsbD i) i) := congrArg parity hv
    _ = v.getLsbD i := parity_bitAt _ hi

/-- Without payload bits, group `k` holds its check bit alone. -/
theorem groupParity_of_payload_zero {d : Word} (hd : ∀ i < 57, d.getLsbD (dpos i) = false) (k : Fin 6) :
    groupParity d k = d.getLsbD (2 ^ k.val) := by
  rw [groupParity, parity_of_single_bit (two_pow_lt_64 k) fun j hj hne => ?others, BitVec.getLsbD_and,
    getLsbD_groupMask_two_pow, decide_eq_true rfl, Bool.and_true]
  case others =>
    rw [BitVec.getLsbD_and]
    rcases position_cases hj with hcheck | ⟨i, hi, rfl⟩
    · rcases parityPositions_cases j hcheck with rfl | ⟨l, rfl⟩
      · rw [getLsbD_groupMask_zero, Bool.and_false]
      · have hl : l ≠ k := fun h => hne (h ▸ rfl)
        rw [getLsbD_groupMask_two_pow, decide_eq_false hl, Bool.and_false]
    · rw [hd i hi, Bool.false_and]

/-- The check bits are determined by the payload: without payload bits a valid codeword has no check bit either. -/
theorem eq_zero_of_validCodeword {d : Word} (hvalid : validCodeword d) (hd : ∀ i < 57, d.getLsbD (dpos i) = false) :
    d = 0#64 := by
  obtain ⟨hsyndrome, hparity⟩ := hvalid
  have hpositional (k : Fin 6) : d.getLsbD (2 ^ k.val) = false := by
    rw [← groupParity_of_payload_zero hd, ← getLsbD_syndrome, hsyndrome, BitVec.getLsbD_zero]
  have hothers : ∀ j < 64, j ≠ 0 → d.getLsbD j = false := by
    intro j hj hne
    rcases position_cases hj with hcheck | ⟨i, hi, rfl⟩
    · rcases parityPositions_cases j hcheck with rfl | ⟨k, rfl⟩
      · exact absurd rfl hne
      · exact hpositional k
    · exact hd i hi
  have hextended : d.getLsbD 0 = false := (parity_of_single_bit (by decide) hothers).symm.trans hparity
  refine BitVec.eq_of_getLsbD_eq fun j hj => ?_
  rw [BitVec.getLsbD_zero]
  by_cases hzero : j = 0
  · rw [hzero, hextended]
  · exact hothers j hj hzero

/-- Every valid codeword is the encoding of its payload (R182). -/
theorem enc_unrepos {c : Word} (hc : validCodeword c) : enc (unrepos c) = c := by
  have hvalid : validCodeword (enc (unrepos c) ^^^ c) := (validCodeword_xor_iff (validCodeword_enc _) c).mpr hc
  refine BitVec.xor_eq_zero_iff.mp (eq_zero_of_validCodeword hvalid fun i hi => ?_)
  rw [BitVec.getLsbD_xor, getLsbD_enc_dpos _ hi, getLsbD_unrepos, decide_eq_true hi, Bool.true_and, Bool.xor_self]

theorem unrepos_enc_of_validPayload {p : Word} (hp : validPayload p) : unrepos (enc p) = p := by
  rw [unrepos_enc, and_payloadMask_of_validPayload hp]

/-! ## The distance of the code -/

theorem popcount_xor_le (a b : Word) : popcount (a ^^^ b) ≤ popcount a + popcount b := by
  have hlaw := popcount_xor_add_and a b
  omega

/-- The triangle inequality of the Hamming distance. -/
theorem popcount_xor_triangle (a b c : Word) : popcount (a ^^^ c) ≤ popcount (a ^^^ b) + popcount (b ^^^ c) := by
  have hmid : a ^^^ c = (a ^^^ b) ^^^ (b ^^^ c) := by
    rw [BitVec.xor_assoc, xor_cancel_left]
  rw [hmid]
  exact popcount_xor_le _ _

theorem popcount_xor_flipBit (v : Word) {i : Nat} (hi : i < 64) : popcount (v ^^^ flipBit v i) = 1 := by
  rw [flipBit, xor_cancel_left, popcount_one_shiftLeft hi]

/-- A word with ones has a one to take off. -/
theorem exists_popcount_flipBit_add_one {e : Word} (he : popcount e ≠ 0) :
    ∃ i < 64, popcount (flipBit e i) + 1 = popcount e := by
  have hbit : ∃ i < 64, e.getLsbD i = true := by
    by_contra! hnone
    refine he ((popcount_eq_zero_iff e).mpr (BitVec.eq_of_getLsbD_eq fun i hi => ?_))
    rw [BitVec.getLsbD_zero, Bool.eq_false_iff.mpr (hnone i hi)]
  obtain ⟨i, hi, hei⟩ := hbit
  have hand : e &&& 1#64 <<< i = 1#64 <<< i := by
    refine BitVec.eq_of_getLsbD_eq fun j _ => ?_
    rw [BitVec.getLsbD_and, getLsbD_one_shiftLeft]
    by_cases h : j = i
    · rw [h, hei, Bool.true_and]
    · rw [decide_eq_false h, Bool.false_and, Bool.and_false]
  have hlaw := popcount_xor_add_and e (1#64 <<< i)
  rw [hand, popcount_one_shiftLeft hi] at hlaw
  exact ⟨i, hi, by rw [flipBit]; omega⟩

/-- A word of weight 2 is two flipped bits of 0, at distinct positions, so it has a syndrome. -/
theorem syndrome_ne_zero_of_popcount_two {e : Word} (he : popcount e = 2) : syndrome e ≠ 0#6 := by
  obtain ⟨q, hq, hfirst⟩ := exists_popcount_flipBit_add_one (e := e) (by omega)
  obtain ⟨p, hp, hsecond⟩ := exists_popcount_flipBit_add_one (e := flipBit e q) (by omega)
  have hnone : flipBit (flipBit e q) p = 0#64 := (popcount_eq_zero_iff _).mp (by omega)
  have heq : e = flipBit (flipBit 0#64 p) q := by rw [← hnone, flipBit_flipBit, flipBit_flipBit]
  intro hs
  rw [heq, syndrome_flipBit_flipBit_eq_zero_iff validCodeword_zero.1 hp hq] at hs
  rw [heq, hs, flipBit_flipBit] at he
  exact absurd he (by decide)

/-- No valid codeword but 0 has weight below 4: 1 and 3 are odd, and weight 2 has a syndrome (R182). -/
theorem four_le_popcount_of_validCodeword {e : Word} (hvalid : validCodeword e) (he : e ≠ 0#64) : 4 ≤ popcount e := by
  obtain ⟨hsyndrome, hparity⟩ := hvalid
  have hzero : popcount e ≠ 0 := fun h => he ((popcount_eq_zero_iff e).mp h)
  have htwo : popcount e ≠ 2 := fun h => syndrome_ne_zero_of_popcount_two h hsyndrome
  have heven := (parity_eq_false_iff e).mp hparity
  omega

/-- Distinct valid codewords differ by a valid codeword that is not 0 (R182). -/
theorem four_le_popcount_xor {c d : Word} (hc : validCodeword c) (hd : validCodeword d) (hne : c ≠ d) :
    4 ≤ popcount (c ^^^ d) :=
  four_le_popcount_of_validCodeword ((validCodeword_xor_iff hc d).mpr hd) (mt BitVec.xor_eq_zero_iff.mp hne)

/-! ## Correction -/

theorem corr_of_parity {w : Word} (hp : parity w = true) :
    corr w = { word := flipBit w (syndrome w).toNat, ok := true } := by
  rw [corr, if_pos hp]

theorem corr_of_validCodeword {w : Word} (hw : validCodeword w) : corr w = { word := w, ok := true } := by
  obtain ⟨hs, hp⟩ := hw
  rw [corr, hp, if_neg Bool.false_ne_true, if_pos hs]

theorem corr_of_syndrome {w : Word} (hp : parity w = false) (hs : syndrome w ≠ 0#6) :
    corr w = { word := w, ok := false } := by
  rw [corr, hp, if_neg Bool.false_ne_true, if_neg hs]

theorem corr_ok_iff (w : Word) : (corr w).ok = true ↔ parity w = true ∨ validCodeword w := by
  rcases corr_cases w with ⟨hp, h⟩ | ⟨hp, hs, h⟩ | ⟨hp, hs, h⟩
  · simp [h, hp]
  · simp [h, validCodeword, hp, hs]
  · simp [h, validCodeword, hp, hs]

/-- Whether a codeword with errors is taken to be corrected depends on the error pattern alone. -/
theorem corr_ok_xor_iff {c : Word} (hc : validCodeword c) (e : Word) :
    (corr (c ^^^ e)).ok = true ↔ parity e = true ∨ validCodeword e := by
  rw [corr_ok_iff, parity_xor_of_validCodeword hc, validCodeword_xor_iff hc]

/-- Correction moves a word by at most one bit. -/
theorem popcount_xor_corr_le_one (w : Word) : popcount (w ^^^ (corr w).word) ≤ 1 := by
  have hself : popcount (w ^^^ w) ≤ 1 := by rw [BitVec.xor_self]; decide
  rcases corr_cases w with ⟨-, h⟩ | ⟨-, -, h⟩ | ⟨-, -, h⟩
  · rw [h]; exact (popcount_xor_flipBit w (syndrome w).isLt).le
  · rw [h]; exact hself
  · rw [h]; exact hself

/-- Flipping the bit that the syndrome names clears the syndrome and the parity (R181). -/
theorem validCodeword_corr {w : Word} (h : (corr w).ok = true) : validCodeword (corr w).word := by
  rcases (corr_ok_iff w).mp h with hp | hw
  · have hlt : (syndrome w).toNat < 64 := (syndrome w).isLt
    rw [corr_of_parity hp]
    refine ⟨?syndrome, ?parity⟩
    case syndrome => rw [syndrome_flipBit w hlt, BitVec.ofNat_toNat, BitVec.setWidth_eq, BitVec.xor_self]
    case parity => rw [parity_flipBit w hlt, hp, Bool.not_true]
  · rwa [corr_of_validCodeword hw]

/-- Unique decoding: what correction reaches is a valid codeword within one bit of the received word, and so within three of
the one sent (R179). -/
theorem corr_word_of_two_errors {c w : Word} (hc : validCodeword c) (hok : (corr w).ok = true)
    (hw : popcount (c ^^^ w) ≤ 2) : (corr w).word = c := by
  have htriangle := popcount_xor_triangle c w (corr w).word
  have hone := popcount_xor_corr_le_one w
  by_contra hne
  have hdistance := four_le_popcount_xor hc (validCodeword_corr hok) (Ne.symm hne)
  omega

/-- Within two errors, success means at most one (R179). -/
theorem corr_ok_iff_of_two_errors {c w : Word} (hc : validCodeword c) (hw : popcount (c ^^^ w) ≤ 2) :
    (corr w).ok = true ↔ popcount (c ^^^ w) ≤ 1 := by
  have hreceived := corr_ok_xor_iff hc (c ^^^ w)
  rw [xor_cancel_left] at hreceived
  rw [hreceived, parity_eq_true_iff]
  constructor
  · rintro (hodd | hvalid)
    · omega
    · by_contra! hmore
      exact syndrome_ne_zero_of_popcount_two (by omega) hvalid.1
  · intro hle
    by_cases hzero : popcount (c ^^^ w) = 0
    · right; rw [(popcount_eq_zero_iff _).mp hzero]; exact validCodeword_zero
    · left; omega

theorem corr_of_one_error {c w : Word} (hc : validCodeword c) (hw : popcount (c ^^^ w) ≤ 1) :
    corr w = { word := c, ok := true } := by
  have hok := (corr_ok_iff_of_two_errors hc (by omega)).mpr hw
  have hword := corr_word_of_two_errors hc hok (by omega)
  rw [← hok, ← hword]

/-! ## Decoding -/

theorem dec_of_one_error {p w : Word} (hp : validPayload p) (hw : popcount (enc p ^^^ w) ≤ 1) :
    dec w = { word := p, ok := true } := by
  have hcorr := corr_of_one_error (validCodeword_enc p) hw
  rw [dec_of_ok (by rw [hcorr]), hcorr, unrepos_enc_of_validPayload hp]

/-- Another codeword reached is another payload decoded. -/
theorem dec_word_ne {p w : Word} (hok : (corr w).ok = true) (hne : (corr w).word ≠ enc p) : (dec w).word ≠ p := by
  rw [dec_of_ok hok]
  intro hpayload
  exact hne (by rw [← hpayload, enc_unrepos (validCodeword_corr hok)])

/-! ## Guarantees -/

/-- Settles O43: within two errors success means at most one, and one error is decoded to the payload sent. -/
theorem decodeIsNeverWrongWithinTheDuty : Obligations.DecodeIsNeverWrongWithinTheDuty := by
  intro p w hp hduty
  have htwo : popcount (enc p ^^^ w) ≤ 2 := of_decide_eq_true hduty
  have hiff := corr_ok_iff_of_two_errors (validCodeword_enc p) htwo
  rw [dec_ok]
  refine ⟨fun hok => ?_, fun hok => ?_, hiff.symm⟩
  · rw [dec_of_one_error hp (hiff.mp hok)]
  · rw [dec_of_not_ok hok]

/-- Settles O44: three errors are odd, so some bit is flipped, and one flip does not undo three errors; four errors are even,
so the word is clean or uncorrectable as the pattern is a codeword or not. -/
theorem threeAndFourErrors : Obligations.ThreeAndFourErrors := by
  refine ⟨fun p e hp he => ?three, fun p e hp he => ⟨fun hvalid => ?codeword, fun hnot => ?other⟩⟩
  case three =>
    have hok := (corr_ok_xor_iff (validCodeword_enc p) e).mpr (.inl ((parity_eq_true_iff e).mpr (by rw [he])))
    have hne : (corr (enc p ^^^ e)).word ≠ enc p := by
      intro h
      have hone := popcount_xor_corr_le_one (enc p ^^^ e)
      rw [h, xor_xor_cancel_comm, he] at hone
      omega
    exact ⟨hok, validCodeword_corr hok, hne, (dec_ok _).trans hok, dec_word_ne hok hne⟩
  case codeword =>
    have hcorr := corr_of_validCodeword ((validCodeword_xor_iff (validCodeword_enc p) e).mpr hvalid)
    have hok : (corr (enc p ^^^ e)).ok = true := by rw [hcorr]
    have hne : (corr (enc p ^^^ e)).word ≠ enc p := by
      rw [hcorr]
      intro (h : enc p ^^^ e = enc p)
      rw [(popcount_eq_zero_iff e).mpr (xor_left_eq_self_iff.mp h)] at he
      omega
    exact ⟨hcorr, (dec_ok _).trans hok, dec_word_ne hok hne⟩
  case other =>
    have heven : parity e ≠ true := by rw [Ne, parity_eq_true_iff, he]; decide
    have hnotOk := mt (corr_ok_xor_iff (validCodeword_enc p) e).mp (not_or.mpr ⟨heven, hnot⟩)
    exact dec_of_not_ok (Bool.eq_false_iff.mpr hnotOk)

/-- Settles O45: what a successful correction reaches is valid, and a valid codeword is clean. -/
theorem correctionYieldsAValidCodeword : Obligations.CorrectionYieldsAValidCodeword :=
  fun _ hok => ⟨validCodeword_corr hok, corr_of_validCodeword (validCodeword_corr hok)⟩

/-- Settles O46: the codewords are the encodings as each is the encoding of its payload; 0 and `ENC(1)` meet the bound. -/
theorem validCodewordsAreTheEncodedPayloads : Obligations.ValidCodewordsAreTheEncodedPayloads := by
  refine ⟨fun c => ⟨fun hc => ⟨unrepos c, validPayload_unrepos c, enc_unrepos hc⟩, ?valid⟩, fun _ => enc_unrepos,
    fun _ _ => four_le_popcount_xor, 0#64, enc 1#64, validCodeword_zero, validCodeword_enc _, ?four⟩
  case valid =>
    rintro ⟨p, -, rfl⟩
    exact validCodeword_enc p
  case four =>
    have hone : enc 1#64 = 0xF#64 := by decide
    rw [BitVec.zero_xor, hone]
    decide

/-- Settles O35: the syndrome is linear and a single bit's syndrome is its position; the rest follows from a codeword's
syndrome being 0. -/
theorem syndromeLaws : Obligations.SyndromeLaws := by
  refine ⟨syndrome_xor, fun _ => syndrome_one_shiftLeft,
    fun c e hc => ⟨syndrome_xor_of_validCodeword hc e, parity_xor_of_validCodeword hc e⟩,
    fun c p q hc hp hq hne => ⟨?single, toNat_syndrome_flipBit_flipBit hc.1 hp hq,
      mt (syndrome_flipBit_flipBit_eq_zero_iff hc.1 hp hq).mp hne, ?even⟩⟩
  case single => exact (syndrome_xor_of_validCodeword hc _).trans (syndrome_one_shiftLeft hp)
  case even => rw [parity_flipBit _ hq, parity_flipBit _ hp, Bool.not_not, hc.2]

/-- Settles O47: a flip at 0 reaches no group, a flip elsewhere the groups of its index; and every flip of a word with two
errors makes its parity odd and thus turns failure into success. -/
theorem decoderReadsItsWholeInput : Obligations.DecoderReadsItsWholeInput := by
  refine ⟨fun w => ⟨parity_flipBit w (by decide), ?zero⟩, fun w b hpos hb => ⟨parity_flipBit w hb, ?nonzero⟩,
    fun b hb => ⟨0x3#64, ?outputs⟩, fun w => ⟨Option.some_ne_none _, Option.some_ne_none _, Option.some_ne_none _⟩⟩
  case zero => exact (syndrome_flipBit w (by decide)).trans BitVec.xor_zero
  case nonzero =>
    rw [syndrome_flipBit w hb, Ne, xor_left_eq_self_iff]
    intro h
    have hmod : b % 64 = 0 := congrArg BitVec.toNat h
    omega
  case outputs =>
    have hfail : (corr 0x3#64).ok = false := by decide
    have hodd : parity (flipBit 0x3#64 b) = true := by
      have heven : parity 0x3#64 = false := by decide
      rw [parity_flipBit _ hb, heven, Bool.not_false]
    intro h
    have hok : (corr (flipBit 0x3#64 b)).ok = (corr 0x3#64).ok := congrArg DecoderPorts.ok h
    rw [corr_of_parity hodd, hfail] at hok
    exact Bool.noConfusion hok

/-! ## The decision table -/

/-- Settles O36: bit 0 of the count port is the remainder of the count (R102). -/
theorem totalParity : Obligations.TotalParity := by
  intro w
  obtain ⟨-, hport, -⟩ := parityIsTheXorOfAllBits w
  exact ⟨toNat_parity w, hport⟩

/-- Settles O39: the class and the correction, row by row of the decision table. -/
theorem classificationOfReceivedWords : Obligations.ClassificationOfReceivedWords := by
  intro w
  rcases corr_cases w with ⟨hp, hcorr⟩ | ⟨hp, hs, hcorr⟩ | ⟨hp, hs, hcorr⟩
  · simp [classify, hp, hcorr]
  · simp [classify, hp, hs, hcorr]
  · simp [classify, hp, hs, hcorr]

/-! ## The operations -/

theorem exec_encode (p : Word) (s : State) :
    exec (.encode p) s = .next (s.deliver (.encode p) { result := enc p, ok := true }) :=
  exec_of_answer rfl s

theorem exec_correctBlock {w : Word} {r : Corrected} (h : corr w = r) (s : State) :
    exec (.correctBlock w) s = .next (s.deliver (.correctBlock w) { result := r.word, ok := r.ok }) := by
  subst h
  exact exec_of_answer rfl s

theorem exec_decode {w : Word} {r : Corrected} (h : dec w = r) (s : State) :
    exec (.decode w) s = .next (s.deliver (.decode w) { result := r.word, ok := r.ok }) := by
  subst h
  exact exec_of_answer rfl s

/-- Settles O34: the result is the syndrome zero extended, the sum of its bits' weights; the corner cases are evaluated. -/
theorem findErrorPositionAnswersTheSyndrome : Obligations.FindErrorPositionAnswersTheSyndrome := by
  refine ⟨fun w s => ⟨zext64 (syndrome w), exec_of_answer rfl s, ?result⟩, fun c hc => ?codeword,
    by decide, by decide, by decide, by decide⟩
  case result =>
    have hsum := toNat_eq_sum_bits (syndrome w)
    simp only [getLsbD_syndrome, groupParity] at hsum
    rw [toNat_zext64 _ (by decide)]
    exact ⟨rfl, (syndrome w).isLt, hsum, rfl⟩
  case codeword =>
    obtain ⟨hs, -⟩ := hc
    rw [responseFindErrorPosition, hs]
    rfl

/-- Settles O37: the three rows of the table; the corner cases are evaluated. -/
theorem correctBlockFollowsTheDecisionTable : Obligations.CorrectBlockFollowsTheDecisionTable :=
  ⟨fun _ s => ⟨fun hp => exec_correctBlock (corr_of_parity hp) s,
    fun hp hs => exec_correctBlock (corr_of_validCodeword ⟨hs, hp⟩) s,
    fun hp hs => exec_correctBlock (corr_of_syndrome hp hs) s, exec_correctBlock rfl s⟩,
    by decide, by decide, by decide, by decide, by decide⟩

/-- Settles O38: both outcomes of `DEC`; a single bit is one error on the codeword 0, and the other corner cases are
evaluated. -/
theorem decodeAnswersThePayloadOrTheWord : Obligations.DecodeAnswersThePayloadOrTheWord := by
  refine ⟨fun w s => ⟨fun hok => ⟨exec_decode (dec_of_ok hok) s, validPayload_unrepos _⟩,
    fun hok => exec_decode (dec_of_not_ok hok) s, ?ports⟩, by decide, fun p hp => ?single, by decide, by decide, ?corrected⟩
  case ports =>
    rw [← dec_ok]
    exact exec_decode rfl s
  case single =>
    have hzero : validPayload 0#64 := Nat.two_pow_pos 57
    have hone : popcount (enc 0#64 ^^^ 1#64 <<< p) ≤ 1 := by
      rw [enc_zero, BitVec.zero_xor, popcount_one_shiftLeft hp]
    rw [responseDecode, dec_of_one_error hzero hone]
  case corrected =>
    have hcorr : corr 0x91A2B3E46AF3BDF9#64 = { word := 0x91A2B3C46AF3BDF9#64, ok := true } := by decide
    have hpayload : unrepos 0x91A2B3C46AF3BDF9#64 = 0x0123456789ABCDEF#64 := by decide
    rw [responseDecode, dec_of_ok (by rw [hcorr]), hcorr, hpayload]

/-- Settles O40: no error and one error are within the unique decoding; two errors leave the parity even and a syndrome. -/
theorem singleErrorsCorrectedDoubleErrorsDetected : Obligations.SingleErrorsCorrectedDoubleErrorsDetected := by
  intro p s hp
  have hc := validCodeword_enc p
  refine ⟨enc p, exec_encode p s, exec_decode (dec_of_one_error hp ?clean), fun b t hb => ?single,
    fun b d t hb hd hne => exec_decode (dec_of_not_ok ?double) t⟩
  case clean => rw [BitVec.xor_self]; decide
  case single =>
    have hone := (popcount_xor_flipBit (enc p) hb).le
    exact ⟨exec_correctBlock (corr_of_one_error hc hone) t, exec_decode (dec_of_one_error hp hone) t⟩
  case double =>
    have heven : parity (flipBit (flipBit (enc p) b) d) = false := by
      rw [parity_flipBit _ hd, parity_flipBit _ hb, hc.2]; rfl
    rw [corr_of_syndrome heven (mt (syndrome_flipBit_flipBit_eq_zero_iff hc.1 hb hd).mp hne)]

end Sys2Proof.Machine
end

section
/-! PROOFS. Family 60_exceptions: what is refused, and which operations report failure. -/

namespace Sys2Proof.Machine

/-- `exec` refuses only a request with no answer, under the one name of R145. -/
theorem exec_refused {i : Instr} {s : State} {e : Refusal} (h : exec i s = .refused e) :
    answer i = none ∧ e = .setParity_parity_positions_nonzero := by
  rw [exec_eq_answer] at h
  cases ha : answer i with
  | none => rw [ha] at h; cases h; exact ⟨rfl, rfl⟩
  | some r => rw [ha] at h; cases h

/-- The requests with no answer are the ill-formed ones (R69, R145). -/
theorem answer_eq_none_iff {i : Instr} : answer i = none ↔ i.wellFormed = false := by
  refine ⟨fun hnone => Bool.eq_false_iff.mpr fun hwf => ?_, answer_of_not_wellFormed⟩
  obtain ⟨r, hr⟩ := exists_answer_of_wellFormed hwf
  cases hnone.symm.trans hr

/-- The operations with a failure mode (R23, R66). -/
theorem canFail_iff {i : Instr} : i.canFail = true ↔ ∃ w, i = .correctBlock w ∨ i = .decode w := by
  cases i <;> simp [Instr.canFail]

/-- An answer with `ok = 0` comes from an operation with a failure mode. -/
theorem canFail_of_answer_of_not_ok {i : Instr} {r : Response} (ha : answer i = some r) (hok : r.ok = false) :
    i.canFail = true := by
  by_contra hfail
  exact Bool.eq_false_iff.mp hok (ok_of_answer_of_not_canFail ha (Bool.eq_false_iff.mpr hfail))

/-- Settles O9: there is no fault to raise; a refusal means no answer, so an ill-formed request; and the six operations
with no failure mode answer `ok = 1`. -/
theorem onlyOkReportsFailure : Obligations.OnlyOkReportsFailure := by
  refine ⟨fun _ f => (nomatch f), fun i s e h => ?refused, fun i r ha hok => ?notOk⟩
  case refused =>
    obtain ⟨hnone, he⟩ := exec_refused h
    exact ⟨he, answer_eq_none_iff.mp hnone⟩
  case notOk => exact canFail_iff.mp (canFail_of_answer_of_not_ok ha hok)

end Sys2Proof.Machine
end

section
/-! PROOFS. Family 70_reset_and_hazards: the host's duty on payloads, failed decodes, refused runs. -/

namespace Sys2Proof.Machine

/-! ## Larger payloads -/

/-- The payload mask keeps exactly the valid payloads: what it leaves is a payload gathered from a codeword (R26, R121). -/
theorem validPayload_iff_and_payloadMask (p : Word) : validPayload p ↔ p &&& payloadMask = p := by
  refine ⟨and_payloadMask_of_validPayload, fun hmask => ?_⟩
  rw [← hmask, ← unrepos_repos]
  exact validPayload_unrepos (repos p)

/-- Decoding an encoded word gives bits 56:0 of what was encoded, a valid payload or not (R179, R233). -/
theorem dec_enc (p : Word) : dec (enc p) = { word := p &&& payloadMask, ok := true } := by
  have hcorr := corr_of_validCodeword (validCodeword_enc p)
  rw [dec_of_ok (by rw [hcorr]), hcorr, unrepos_enc]

theorem dutyPayload_of_takesPayload {i : Instr} (h : i.takesPayload = true) :
    dutyPayload i = true ↔ validPayload i.operand := by
  rw [dutyPayload, h, Bool.not_true, Bool.false_or, decide_eq_true_iff, validPayload]

/-- Settles O41: both round trips mask to the payload bits, and the mask keeps exactly what the duty admits. -/
theorem largerPayloadsLoseTheirHighBits : Obligations.LargerPayloadsLoseTheirHighBits := by
  intro p s
  refine ⟨exec_decode (dec_enc p) s, exec_of_answer ?unreposition s,
    (dutyPayload_of_takesPayload rfl).trans (validPayload_iff_and_payloadMask p),
    (dutyPayload_of_takesPayload rfl).trans (validPayload_iff_and_payloadMask p)⟩
  case unreposition => rw [answer, responseUnreposition, unrepos_repos, succeed, payloadMask]

/-! ## Failed decodes -/

theorem Response.payload_eq_none_iff (r : Response) : r.payload = none ↔ r.ok = false := by
  cases hok : r.ok <;> simp [Response.payload, hok]

theorem Response.payload_eq_some_iff (r : Response) (p : Word) : r.payload = some p ↔ r.ok = true ∧ r.result = p := by
  cases hok : r.ok <;> simp [Response.payload, hok]

/-- Settles O42: a payload is taken on success alone, where `DEC` gathers it; on failure `DEC` gives its operand. -/
theorem failedDecodeGivesNoPayload : Obligations.FailedDecodeGivesNoPayload := by
  intro w
  refine ⟨(Response.payload_eq_none_iff _).symm, fun hfail => ?operand, fun p hp => ?payload⟩
  case operand =>
    have hcorr : (corr w).ok = false := (dec_ok w).symm.trans hfail
    rw [responseDecode, dec_of_not_ok hcorr]
  case payload =>
    obtain ⟨hok, rfl⟩ := (Response.payload_eq_some_iff _ p).mp hp
    have hcorr : (corr w).ok = true := (dec_ok w).symm.trans hok
    rw [responseDecode, dec_of_ok hcorr]
    exact validPayload_unrepos _

/-! ## Refused runs -/

/-- More steps after a refusal do not change it: a run stops there. -/
theorem run_add_of_refused {M : Host.Core} {k : Nat} {s : M.State} {r : M.Refusal} (h : M.run k s = .refused r)
    (n : Nat) : M.run (k + n) s = .refused r := by
  induction k generalizing s with
  | zero => cases h
  | succ k ih =>
    rw [Nat.succ_add]
    simp only [Host.Core.run] at h ⊢
    cases hstep : M.step s with
    | next t => rw [hstep] at h; exact ih h
    | fault f => rw [hstep] at h; cases h
    | refused e => rw [hstep] at h; exact h

@[simp] theorem hostOutcome_eq_refused {x : Except Refusal State} {e : Refusal} :
    hostOutcome x = .refused e ↔ x = .error e := by
  cases x <;> simp [hostOutcome]

/-! No part of an act is refused as if nothing were pending: each refusal has a name of its own (logs 3, 4, 16). -/

theorem State.readSlot_ne_noRequest {s : State} {worker slot : Nat} : s.readSlot worker slot ≠ .error .noRequest := by
  unfold State.readSlot
  split
  · nofun
  · split <;> nofun

theorem State.writeSlot_ne_noRequest {s : State} {worker slot : Nat} {v : Word} :
    s.writeSlot worker slot v ≠ .error .noRequest := by
  unfold State.writeSlot
  split <;> nofun

theorem State.receivedResult_ne_noRequest {s : State} {k : Nat} : s.receivedResult k ≠ .error .noRequest := by
  unfold State.receivedResult
  split <;> nofun

theorem writeBack_ne_noRequest {s : State} {worker slot : Nat} : writeBack s worker slot ≠ .error .noRequest := by
  intro h
  unfold writeBack at h
  split at h
  · cases h
  · split at h
    · cases h
    · split at h
      · next hreceived => cases h; exact State.receivedResult_ne_noRequest hreceived
      · cases h

theorem storeResult_ne_noRequest {s : State} {worker slot k : Nat} : storeResult s worker slot k ≠ .error .noRequest := by
  intro h
  unfold storeResult at h
  split at h
  · next hreceived => cases h; exact State.receivedResult_ne_noRequest hreceived
  · exact State.writeSlot_ne_noRequest h

theorem copySlot_ne_noRequest {s : State} {worker source target : Nat} :
    copySlot s worker source target ≠ .error .noRequest := by
  intro h
  unfold copySlot at h
  split at h
  · next hread => cases h; exact State.readSlot_ne_noRequest hread
  · exact State.writeSlot_ne_noRequest h

theorem flipSlot_ne_noRequest {s : State} {worker slot : Nat} {mask : Word} :
    flipSlot s worker slot mask ≠ .error .noRequest := by
  intro h
  unfold flipSlot at h
  split at h
  · next hread => cases h; exact State.readSlot_ne_noRequest hread
  · exact State.writeSlot_ne_noRequest h

theorem noiseSlot_ne_noRequest {s : State} {slot : Nat} {mask : Word} : noiseSlot s slot mask ≠ .error .noRequest := by
  unfold noiseSlot
  split <;> nofun

/-- The block refuses a request it is presented with under `setParity`'s name alone (R145). -/
theorem present_ne_noRequest {s : State} {n : Nat} {q : BitVec 67} : present s n q ≠ .refused .noRequest := by
  intro h
  obtain ⟨-, hname⟩ := exec_refused h
  cases hname

/-- No act is refused as if there were none. -/
theorem perform_ne_noRequest {a : HostAct} {s : State} : perform a s ≠ .refused .noRequest := by
  intro h
  cases a with
  | request n q => exact present_ne_noRequest h
  | requestStored worker n op slot =>
    simp only [perform, presentStored] at h
    split at h
    · next hread => cases h; exact State.readSlot_ne_noRequest hread
    · exact present_ne_noRequest h
  | requestInPlace worker n op slot =>
    simp only [perform, presentInPlace] at h
    split at h
    · next hread => cases h; exact State.readSlot_ne_noRequest hread
    · exact present_ne_noRequest h
  | writeBack worker slot => exact writeBack_ne_noRequest (hostOutcome_eq_refused.mp h)
  | store worker slot v => exact State.writeSlot_ne_noRequest (hostOutcome_eq_refused.mp h)
  | storeResult worker slot k => exact storeResult_ne_noRequest (hostOutcome_eq_refused.mp h)
  | copy worker source target => exact copySlot_ne_noRequest (hostOutcome_eq_refused.mp h)
  | flip worker slot mask => exact flipSlot_ne_noRequest (hostOutcome_eq_refused.mp h)
  | noise slot mask => exact noiseSlot_ne_noRequest (hostOutcome_eq_refused.mp h)

/-- Settles O55: a run stops at its refusal; and only the empty queue is refused as such, as a pending act is performed. -/
theorem refusalIsKeptForTheWholeRun : Obligations.RefusalIsKeptForTheWholeRun := by
  refine ⟨fun k n s r h => run_add_of_refused h n, fun s => ⟨fun hempty => ?empty, fun h => ?refused⟩⟩
  case empty => rw [step, hempty]
  case refused =>
    cases hp : s.pending with
    | nil => rfl
    | cons a rest => exact absurd ((step_of_pending hp).symm.trans h) perform_ne_noRequest

end Sys2Proof.Machine
end
